-- ==== Sys2Proof/Word.lean ====
section
/-! DEFINITION. The words of the block: bytes and 16-bit values (spec/00_scope.md R7, R8). -/

namespace Sys2Proof

/-- A byte, 8 bits, unsigned (R7, R8). -/
abbrev Byte := BitVec 8

/-- A 16-bit unsigned value: a CRC, an address, a quantity, a register value (R7, R8). -/
abbrev U16 := BitVec 16

end Sys2Proof
end

