-- ==== Sys2Proof/Config.lean ====
section
/-! DEFINITION. The implementation parameters of spec/00_scope.md R7 and the open values of
spec/93_implementation_defined.md. -/

namespace Sys2Proof

/-- The label of an exception code (spec/42_response_parser.md R96): nine named labels and the
generic one. -/
inductive ExcLabel where
  | unknown
  | illegalFunction
  | illegalDataAddress
  | illegalDataValue
  | slaveDeviceFailure
  | acknowledge
  | slaveDeviceBusy
  | memoryParityError
  | gatewayPathUnavailable
  | gatewayTargetFailed
  deriving DecidableEq, Repr

namespace Config

/-- `CRC_INIT` (R7, R68). -/
def crcInit : U16 := 0xFFFF#16

/-- `CRC_POLY`, the reflected polynomial (R7, R66). -/
def crcPoly : U16 := 0xA001#16

/-- `EXC_LEN`, the length of an exception response (R7, R45). -/
def excLen : Nat := 5

/-- `FRAME_MAX`, the encoder's length guard: it fails above this length (R7, R78). -/
def frameMax : Nat := 250

/-- `RX_CAP`, the capacity of the receive buffer (R7, R20).
DESIGN CHOICE (log entry 7, safe): the spec fixes 131075 and lets a model take another value from 5
up; the model takes the spec's. -/
def rxCap : Nat := 131075

/-- `LABEL_TEXT` for every label but code 2's (R96, U8): the spec leaves these texts open, so this
constant has no body. Log entry 8 (safe). -/
opaque otherLabelText : ExcLabel → String

end Config
end Sys2Proof
end

