-- ==== Sys2Proof/Machine/Operands.lean ====
section
/-! DEFINITION. Byte order and operand forms: spec/00_scope.md R8, R9, spec/20_memory.md R28 to R32 and
spec/30_encoding.md R54. -/

namespace Sys2Proof.Machine

/-- `hi(v) = v[15:8]` (R9). -/
def hi (v : U16) : Byte := v.extractLsb' 8 8

/-- `lo(v) = v[7:0]` (R9). -/
def lo (v : U16) : Byte := v.extractLsb' 0 8

/-- `zext_16(b)` (R8). -/
def zext16 (b : Byte) : U16 := b.setWidth 16

/-- `be16(h, l) = (h << 8) | l` (R9). -/
def be16 (h l : Byte) : U16 := (zext16 h <<< 8) ||| zext16 l

/-- `le16(l, h) = (h << 8) | l` (R9). -/
def le16 (l h : Byte) : U16 := (zext16 h <<< 8) ||| zext16 l

/-- `s[i]` (R9). Callers stay below `len(s)` (R27, R104); the 0 past the end reaches no result. -/
def byteAt (s : List Byte) (i : Nat) : Byte := s.getD i 0#8

/-- A number as four bytes, high byte first (R54, R56). -/
def u32Bytes (m : Nat) : List Byte :=
  [BitVec.ofNat 8 (m / 256 / 256 / 256), BitVec.ofNat 8 (m / 256 / 256), BitVec.ofNat 8 (m / 256),
    BitVec.ofNat 8 m]

/-- The number four bytes stand for, high byte first (R54). -/
def u32Of (m3 m2 m1 m0 : Byte) : Nat :=
  ((m3.toNat * 256 + m2.toNat) * 256 + m1.toNat) * 256 + m0.toNat

/-- A `u16` operand or result as bytes, high byte first (R32, R54). -/
def u16Bytes (v : U16) : List Byte := [hi v, lo v]

/-- A `bytes` operand or result: its 32-bit length, then its bytes (R54, R56). -/
def bytesField (s : List Byte) : List Byte := u32Bytes s.length ++ s

/-- Read a `u8` operand. -/
def takeU8 : List Byte → Option (Byte × List Byte)
  | b :: rest => some (b, rest)
  | [] => none

/-- Read a `u16` operand, high byte first (R32, R54). -/
def takeU16 : List Byte → Option (U16 × List Byte)
  | h :: l :: rest => some (be16 h l, rest)
  | _ => none

/-- Read a `bytes` operand: a 32-bit length `m`, high byte first, then `m` bytes (R54). -/
def takeBytes : List Byte → Option (List Byte × List Byte)
  | m3 :: m2 :: m1 :: m0 :: rest =>
    if u32Of m3 m2 m1 m0 ≤ rest.length then
      some (rest.take (u32Of m3 m2 m1 m0), rest.drop (u32Of m3 m2 m1 m0))
    else none
  | _ => none

/-- A response's byte 1: the exception bit is bit 7 (R46), `fc` the other seven bits. -/
def functionByte (exc : Bool) (fc : BitVec 7) : Byte :=
  if exc then 0x80#8 ||| fc.setWidth 8 else fc.setWidth 8

/-- The function codes the encoder admits (R43, R77). -/
def admittedFunctionCode (fc : Byte) : Bool :=
  fc == 0x01#8 || fc == 0x02#8 || fc == 0x03#8 || fc == 0x04#8

end Sys2Proof.Machine
end

