-- ==== Sys2Proof/Machine/Checksum.lean ====
section
/-! DEFINITION. The CRC-16/Modbus functions of spec/40_crc.md R66 to R68 and the little-endian trailer
of spec/20_memory.md R29. Total, without state (R64, R72). -/

namespace Sys2Proof.Machine

/-- `crc_round` (R66). -/
def crcRound (acc : U16) : U16 :=
  if acc.getLsbD 0 then (acc >>> 1) ^^^ Config.crcPoly else acc >>> 1

/-- `n` rounds. -/
def crcRounds : Nat → U16 → U16
  | 0, acc => acc
  | n + 1, acc => crcRounds n (crcRound acc)

/-- `crc_step(acc, b)`: the byte enters at the low end, then eight rounds (R67). -/
def crcStep (acc : U16) (b : Byte) : U16 := crcRounds 8 (acc ^^^ zext16 b)

/-- A run of `crc_step` from any accumulator. -/
def crcFrom (acc : U16) : List Byte → U16
  | [] => acc
  | b :: s => crcFrom (crcStep acc b) s

/-- `crc16(s)`: from 0xFFFF, no final XOR (R68). -/
def crc16 (s : List Byte) : U16 := crcFrom Config.crcInit s

/-- A frame with its CRC trailer, "CRC low byte then high byte" (R29, R47). -/
def withTrailer (f : List Byte) : List Byte := f ++ [lo (crc16 f), hi (crc16 f)]

end Sys2Proof.Machine
end

