-- ==== Sys2Proof/Machine/Flags.lean ====
section
/-! DEFINITION. The block's one flag, `RX_EXC` (spec/10_state.md R19, R22), and the expected length that
goes with it (spec/30_encoding.md R46, R52; spec/42_response_parser.md R84). -/

namespace Sys2Proof.Machine

/-- The exception bit of a byte: bit 7, mask 0x80 (R46). -/
def exceptionBit (b : Byte) : Bool := b.getLsbD 7

/-- `len(buf) ≥ 2` and `buf[1][7] = 1` (R84). -/
def exceptionSeen : List Byte → Bool
  | _ :: b :: _ => exceptionBit b
  | _ => false

/-- The latch fires on this append: it is clear and the exception bit is seen (R83, R84). -/
def latchFires (exc : Bool) (buf : List Byte) : Bool := !exc && exceptionSeen buf

/-- `expected_len(q, e)`, exact, without a 16-bit wrap (R52). -/
def expectedLen (q : U16) (e : Bool) : Nat := if e then Config.excLen else 5 + 2 * q.toNat

end Sys2Proof.Machine
end

