-- ==== Sys2Proof/Machine/Labels.lean ====
section
/-! DEFINITION. The exception-code label table of spec/42_response_parser.md R96. -/

namespace Sys2Proof.Machine

/-- `exc_label(code)`, total over the 256 codes (R96). -/
def excLabel (code : Byte) : ExcLabel :=
  match code.toNat with
  | 1 => .illegalFunction
  | 2 => .illegalDataAddress
  | 3 => .illegalDataValue
  | 4 => .slaveDeviceFailure
  | 5 => .acknowledge
  | 6 => .slaveDeviceBusy
  | 8 => .memoryParityError
  | 10 => .gatewayPathUnavailable
  | 11 => .gatewayTargetFailed
  | _ => .unknown

/-- The label id column of R96. -/
def labelId : ExcLabel → Byte
  | .unknown => 0#8
  | .illegalFunction => 1#8
  | .illegalDataAddress => 2#8
  | .illegalDataValue => 3#8
  | .slaveDeviceFailure => 4#8
  | .acknowledge => 5#8
  | .slaveDeviceBusy => 6#8
  | .memoryParityError => 8#8
  | .gatewayPathUnavailable => 10#8
  | .gatewayTargetFailed => 11#8

/-- `LABEL_TEXT` (R96, U8): only code 2's text is the source's; the others are left open (log entry 8). -/
def labelText : ExcLabel → String
  | .illegalDataAddress => "Illegal Data Address"
  | l => Config.otherLabelText l

end Sys2Proof.Machine
end

