-- ==== Sys2Proof/Machine/State.lean ====
section
/-! DEFINITION. The state of the block (spec/10_state.md R14), what it hands back (R11), how a step can
stop (spec/60_exceptions.md R114, R115), and the state after reset (spec/70_reset_and_hazards.md R127). -/

namespace Sys2Proof.Machine

/-- `RX_STATE` (R16). Value 3 is reserved and never held, so it has no constructor (U6, log entry 9). -/
inductive RxState where
  | idle
  | receiving
  | complete
  deriving DecidableEq, Repr

/-- What a command hands to the host when it ends (R10, R11, R55, R110). -/
inductive Result where
  /-- A command with no result (R55). -/
  | none
  /-- CRC.READ and CRC.CALC: a 16-bit CRC. -/
  | crc (v : U16)
  /-- REQ.BUILD, status OK: the frame. -/
  | frame (f : List Byte)
  /-- REQ.BUILD, status FRAME_TOO_LONG: the encoded length (R113). -/
  | frameTooLong (len : Nat)
  /-- RX.BYTE: the `taken` bit. -/
  | taken (t : Bool)
  /-- RX.STATUS: the status record (R89). -/
  | status (state : RxState) (exc : Bool) (len : Nat) (expect : BitVec 18) (qty : U16)
  /-- RX.VALIDATE, status OK: the payload (R94). -/
  | payload (p : List Byte)
  /-- RX.VALIDATE, status CRC_MISMATCH: both values (R111). -/
  | crcMismatch (computed received : U16)
  /-- RX.VALIDATE, status MODBUS_EXCEPTION: the code and its label (R112). -/
  | modbusException (code : Byte) (label : ExcLabel)
  /-- DEC.REGS: the values in index order (R102). -/
  | regs (vs : List U16)
  /-- DEC.COILS: the bits in index order (R103). -/
  | coils (vs : List Bool)
  deriving DecidableEq, Repr

/-- What the host gives the block: the bytes of one command (R54), or a reset (R127). -/
inductive HostInput where
  | command (bytes : List Byte)
  | reset
  deriving DecidableEq, Repr

/-- Faults: cases to which the spec gives no value. -/
inductive Fault where
  /-- DEC.REGS and DEC.COILS, on a payload shorter than the quantity needs (R104, R114). Safe. -/
  | payloadTooShort
  /-- RX.VALIDATE and the wire responses, in COMPLETE with fewer than five bytes held: no state that
  meets R21 (log entry 10). Safe. -/
  | frameTooShort
  deriving DecidableEq, Repr

/-- Refusals: what lies outside the interface contract. -/
inductive Refusal where
  /-- An instruction without a meaning in this model: none. Safe. -/
  | notModelled (mnemonic : String)
  /-- The fetch, on an opcode byte that is not in R55 (R57, R115). Safe. -/
  | illegalOpcode
  /-- The fetch, on a command with fewer or more bytes than its opcode's layout (log entry 3). Safe. -/
  | malformedCommand
  /-- REQ.BUILD, on a function code outside 1 to 4 (R77, R115). Safe. -/
  | unsupportedFunctionCode
  /-- RX.VALIDATE, when the receiver is not COMPLETE (R90, R115). Safe. -/
  | validateBeforeComplete
  /-- RX.START, when the frame would not fit the buffer (R82, R115): never, with this capacity. Safe. -/
  | rxCapacity
  deriving DecidableEq, Repr

/-- The six registers of R14, and the two ends of the host interface. -/
structure State where
  /-- `CRC_ACC` (R15). -/
  crcAcc : U16
  /-- `RX_STATE` (R16). -/
  rxState : RxState
  /-- `RX_QTY` (R17). -/
  rxQty : U16
  /-- `RX_EXPECT` (R18). -/
  rxExpect : BitVec 18
  /-- `RX_EXC` (R19). -/
  rxExc : Bool
  /-- `RX_BUF`, first received byte first (R20). -/
  rxBuf : List Byte
  /-- The host's command sequence still to run, oldest first (R13; the model's field, log entry 1). -/
  inputs : List HostInput
  /-- The results handed to the host so far, oldest first (R11; the model's field, log entry 4). -/
  results : List Result
  deriving DecidableEq, Repr

/-- The state after reset (R127, R14): every register at the spec's value; no command pending and no
result handed out (DESIGN CHOICE, log entries 1 and 4). -/
def State.reset : State where
  crcAcc := Config.crcInit
  rxState := .idle
  rxQty := 0#16
  rxExpect := 0#18
  rxExc := false
  rxBuf := []
  inputs := []
  results := []

end Sys2Proof.Machine
end

