-- ==== Sys2Proof/Machine/Ops.lean ====
section
/-! DEFINITION. The operations the commands share. The block takes no trap (spec/60_exceptions.md R107,
R117): an error is a result, so `raise` stands where another machine has exception entry, and there is
no return from one (R118). -/

namespace Sys2Proof.Machine

/-! ### Ending a command (R10) -/

/-- Hand a result to the host. -/
def emit (r : Result) (s : State) : State := { s with results := s.results ++ [r] }

/-- `return v`: the command ends with a result (R10). -/
def finish (r : Result) (s : State) : Host.Outcome State Fault Refusal := .next (emit r s)

/-- `raise S(info)`: the command ends with an error status and has written no state (R10, R107). -/
def raise (r : Result) (s : State) : Host.Outcome State Fault Refusal := .next (emit r s)

/-! ### Register writes -/

/-- Write `CRC_ACC` (R15). -/
def setCrc (v : U16) (s : State) : State := { s with crcAcc := v }

/-- The register writes of RX.START (R82). -/
def armReceiver (q : U16) (s : State) : State :=
  { s with
    rxState := .receiving
    rxQty := q
    rxExpect := BitVec.ofNat 18 (expectedLen q false)
    rxExc := false
    rxBuf := [] }

/-- The register writes of RX.ABORT (R88). -/
def clearReceiver (s : State) : State :=
  { s with
    rxState := .idle
    rxQty := 0#16
    rxExpect := 0#18
    rxExc := false
    rxBuf := [] }

/-- `RX_EXPECT` after the append that makes the buffer `buf` (R84). -/
def expectAfter (s : State) (buf : List Byte) : BitVec 18 :=
  if latchFires s.rxExc buf then BitVec.ofNat 18 Config.excLen else s.rxExpect

/-- The register writes of RX.BYTE while RECEIVING: append, latch, completion test (R83 to R85). -/
def absorb (b : Byte) (s : State) : State :=
  { s with
    rxBuf := s.rxBuf ++ [b]
    rxExc := s.rxExc || latchFires s.rxExc (s.rxBuf ++ [b])
    rxExpect := expectAfter s (s.rxBuf ++ [b])
    rxState :=
      if (s.rxBuf ++ [b]).length = (expectAfter s (s.rxBuf ++ [b])).toNat then .complete
      else s.rxState }

/-- Reset: every register to its reset value (R127, R129). The host's pending commands and the results
it has been given are not the block's to clear (log entry 11). -/
def resetRegisters (s : State) : State :=
  { State.reset with inputs := s.inputs, results := s.results }

/-! ### Receiving -/

/-- One received byte, with its `taken` result (R83, R86). -/
def receiveByte (b : Byte) (s : State) : State :=
  match s.rxState with
  | .receiving => emit (.taken true) (absorb b s)
  | .idle => emit (.taken false) s
  | .complete => emit (.taken false) s

/-- Received bytes in arrival order, each on the state the one before it left (R87). -/
def receiveBytes : List Byte → State → State
  | [], s => s
  | b :: bs, s => receiveBytes bs (receiveByte b s)

/-! ### Judging a frame -/

/-- What the parser says of a frame of at least five bytes: the CRC first on both paths, then the
exception, then OK (R91 to R94, R116). -/
def judge (exc : Bool) (buf : List Byte) : Result :=
  let n := buf.length
  let computed := crc16 (buf.take (n - 2))
  let received := le16 (byteAt buf (n - 2)) (byteAt buf (n - 1))
  if computed ≠ received then .crcMismatch computed received
  else if exc then .modbusException (byteAt buf 2) (excLabel (byteAt buf 2))
  else .payload (buf.take (n - 2))

/-- Judge the frame held, in COMPLETE only (R90, R91). A complete frame has at least five bytes; the
fault is for states outside R21 (log entry 10). -/
def validate (s : State) : Host.Outcome State Fault Refusal :=
  match s.rxState with
  | .complete =>
    if s.rxBuf.length < 5 then .fault .frameTooShort else finish (judge s.rxExc s.rxBuf) s
  | .idle => .refused .validateBeforeComplete
  | .receiving => .refused .validateBeforeComplete

/-- A response frame reaches the block: its bytes are received in order, and if the receiver is then
COMPLETE the frame held is judged (R35, R87, R91, R124; log entry 6). -/
def receiveFrame (f : List Byte) (s : State) : Host.Outcome State Fault Refusal :=
  if (receiveBytes f s).rxState = .complete then validate (receiveBytes f s)
  else .next (receiveBytes f s)

/-! ### Building a request -/

/-- REQ.BUILD (R76): refusal first (R116), then the frame, then the length guard (R78). -/
def buildRequest (slave fc : Byte) (addr qty : U16) (s : State) :
    Host.Outcome State Fault Refusal :=
  if admittedFunctionCode fc then
    let f := [slave, fc, hi addr, lo addr, hi qty, lo qty]
    let c := crc16 f
    let g := f ++ [lo c, hi c]
    if g.length > Config.frameMax then raise (.frameTooLong g.length) s else finish (.frame g) s
  else .refused .unsupportedFunctionCode

/-! ### Decoding values -/

/-- Value `i` of a register payload (R30, R102). -/
def registerAt (p : List Byte) (i : Nat) : U16 := be16 (byteAt p (3 + 2 * i)) (byteAt p (4 + 2 * i))

/-- Bit `i` of a coil payload, least significant bit first (R31, R103). -/
def coilAt (p : List Byte) (i : Nat) : Bool := (byteAt p (3 + i / 8)).getLsbD (i % 8)

/-- `ceil(q / 8)` (R103). -/
def coilBytes (q : Nat) : Nat := (q + 7) / 8

end Sys2Proof.Machine
end

