-- ==== Sys2Proof/Machine/Crc.lean ====
section
/-! DEFINITION. The CRC family: CRC.INIT, CRC.FEED, CRC.READ, CRC.CALC (spec/40_crc.md R69 to R72) and
the pseudo-instruction CRC.SEQ (spec/30_encoding.md R63). -/

namespace Sys2Proof.Machine

/-- CRC.INIT (R69). -/
def execCrcInit (s : State) : Host.Outcome State Fault Refusal :=
  finish .none (setCrc Config.crcInit s)

/-- The state after CRC.FEED (R70). -/
def feedByte (b : Byte) (s : State) : State := emit .none (setCrc (crcStep s.crcAcc b) s)

/-- CRC.FEED b (R70). -/
def execCrcFeed (b : Byte) (s : State) : Host.Outcome State Fault Refusal := .next (feedByte b s)

/-- CRC.READ (R71). -/
def execCrcRead (s : State) : Host.Outcome State Fault Refusal := finish (.crc s.crcAcc) s

/-- CRC.CALC s, on a datapath of its own (R72). -/
def execCrcCalc (bs : List Byte) (s : State) : Host.Outcome State Fault Refusal :=
  finish (.crc (crc16 bs)) s

/-- Bytes fed one after the other. -/
def feedBytes : List Byte → State → State
  | [], s => s
  | b :: bs, s => feedBytes bs (feedByte b s)

/-- CRC.SEQ: CRC.INIT, then CRC.FEED for each byte (R63; log entry 5). -/
def execCrcSeq (bs : List Byte) (s : State) : Host.Outcome State Fault Refusal :=
  .next (feedBytes bs (emit .none (setCrc Config.crcInit s)))

end Sys2Proof.Machine
end

