-- ==== Sys2Proof/Machine/Receiver.lean ====
section
/-! DEFINITION. The response parser: RX.START, RX.BYTE, RX.ABORT, RX.STATUS, RX.VALIDATE, the
pseudo-instruction RX.CHUNK, and the two response frames (spec/42_response_parser.md R82 to R97,
spec/30_encoding.md R44, R45). -/

namespace Sys2Proof.Machine

/-- RX.START q (R82). The refusal is never taken with the default capacity. -/
def execRxStart (q : U16) (s : State) : Host.Outcome State Fault Refusal :=
  if expectedLen q false > Config.rxCap then .refused .rxCapacity
  else finish .none (armReceiver q s)

/-- RX.BYTE b (R83 to R86). -/
def execRxByte (b : Byte) (s : State) : Host.Outcome State Fault Refusal := .next (receiveByte b s)

/-- RX.ABORT (R88). -/
def execRxAbort (s : State) : Host.Outcome State Fault Refusal := finish .none (clearReceiver s)

/-- RX.STATUS (R89). -/
def execRxStatus (s : State) : Host.Outcome State Fault Refusal :=
  finish (.status s.rxState s.rxExc s.rxBuf.length s.rxExpect s.rxQty) s

/-- RX.VALIDATE (R90, R91). -/
def execRxValidate (s : State) : Host.Outcome State Fault Refusal := validate s

/-- RX.CHUNK: one RX.BYTE per byte, in order (R63, R87; log entry 5). -/
def execRxChunk (bs : List Byte) (s : State) : Host.Outcome State Fault Refusal :=
  .next (receiveBytes bs s)

/-- WIRE.RSP.NORMAL: the frame of R44 is received and, once complete, judged (R91; log entry 6). -/
def execWireRspNormal (slave : Byte) (fc : BitVec 7) (count : Byte) (data : List Byte) (crc : U16)
    (s : State) : Host.Outcome State Fault Refusal :=
  receiveFrame ([slave, functionByte false fc, count] ++ data ++ [lo crc, hi crc]) s

/-- WIRE.RSP.EXCEPTION: the frame of R45 is received and, once complete, judged (R93; log entry 6). -/
def execWireRspException (slave : Byte) (fc : BitVec 7) (code : Byte) (crc : U16) (s : State) :
    Host.Outcome State Fault Refusal :=
  receiveFrame [slave, functionByte true fc, code, lo crc, hi crc] s

end Sys2Proof.Machine
end

