-- ==== Sys2Proof/Machine/Request.lean ====
section
/-! DEFINITION. The request encoder: REQ.BUILD and the four request frames it builds
(spec/41_request_encoder.md R76 to R81, spec/30_encoding.md R41, R43). -/

namespace Sys2Proof.Machine

/-- REQ.BUILD (R76). -/
def execReqBuild (slave fc : Byte) (addr qty : U16) (s : State) :
    Host.Outcome State Fault Refusal :=
  buildRequest slave fc addr qty s

/-- WIRE.REQ.01: the encoder emits the Read Coils frame (R43, R76, R81; log entry 6). -/
def execWireReq01 (slave : Byte) (addr qty : U16) (s : State) : Host.Outcome State Fault Refusal :=
  buildRequest slave 0x01#8 addr qty s

/-- WIRE.REQ.02: the encoder emits the Read Discrete Inputs frame (R43, R76, R81; log entry 6). -/
def execWireReq02 (slave : Byte) (addr qty : U16) (s : State) : Host.Outcome State Fault Refusal :=
  buildRequest slave 0x02#8 addr qty s

/-- WIRE.REQ.03: the encoder emits the Read Holding Registers frame (R43, R76, R81; log entry 6). -/
def execWireReq03 (slave : Byte) (addr qty : U16) (s : State) : Host.Outcome State Fault Refusal :=
  buildRequest slave 0x03#8 addr qty s

/-- WIRE.REQ.04: the encoder emits the Read Input Registers frame (R43, R76, R81; log entry 6). -/
def execWireReq04 (slave : Byte) (addr qty : U16) (s : State) : Host.Outcome State Fault Refusal :=
  buildRequest slave 0x04#8 addr qty s

end Sys2Proof.Machine
end

