-- ==== Sys2Proof/Machine/ValueDecoder.lean ====
section
/-! DEFINITION. The value decoder: DEC.REGS and DEC.COILS (spec/43_value_decoder.md R101 to R106). -/

namespace Sys2Proof.Machine

/-- DEC.REGS q, p (R102, R104). -/
def execDecRegs (q : U16) (p : List Byte) (s : State) : Host.Outcome State Fault Refusal :=
  if p.length < 3 + 2 * q.toNat then .fault .payloadTooShort
  else finish (.regs ((List.range q.toNat).map (registerAt p))) s

/-- DEC.COILS q, p (R103, R104). -/
def execDecCoils (q : U16) (p : List Byte) (s : State) : Host.Outcome State Fault Refusal :=
  if p.length < 3 + coilBytes q.toNat then .fault .payloadTooShort
  else finish (.coils ((List.range q.toNat).map (coilAt p))) s

end Sys2Proof.Machine
end

