-- ==== Sys2Proof/Syntax.lean ====
section
/-! DEFINITION. The instructions: one constructor per row of spec/opcode_table.json, with the operands
of spec/30_encoding.md R55 (commands), R63 (pseudo-instructions) and R41, R44, R45 (wire frames). -/

namespace Sys2Proof

/-- The twelve commands, the two pseudo-instructions and the six wire-frame forms. -/
inductive Instr where
  /-- CRC.INIT (R69). -/
  | crcInit
  /-- CRC.FEED b (R70). -/
  | crcFeed (b : Byte)
  /-- CRC.READ (R71). -/
  | crcRead
  /-- CRC.CALC s (R72). -/
  | crcCalc (s : List Byte)
  /-- REQ.BUILD slave, fc, addr, qty (R76). -/
  | reqBuild (slave fc : Byte) (addr qty : U16)
  /-- RX.START q (R82). -/
  | rxStart (q : U16)
  /-- RX.BYTE b (R83). -/
  | rxByte (b : Byte)
  /-- RX.ABORT (R88). -/
  | rxAbort
  /-- RX.STATUS (R89). -/
  | rxStatus
  /-- RX.VALIDATE (R91). -/
  | rxValidate
  /-- DEC.REGS q, p (R102). -/
  | decRegs (q : U16) (p : List Byte)
  /-- DEC.COILS q, p (R103). -/
  | decCoils (q : U16) (p : List Byte)
  /-- RX.CHUNK bs, a pseudo-instruction (R63, R87). -/
  | rxChunk (bs : List Byte)
  /-- CRC.SEQ bs, a pseudo-instruction (R63). -/
  | crcSeq (bs : List Byte)
  /-- WIRE.REQ.01, the Read Coils request frame (R41, R43). Its CRC bytes are determined by the rest. -/
  | wireReq01 (slave : Byte) (addr qty : U16)
  /-- WIRE.REQ.02, the Read Discrete Inputs request frame (R41, R43). -/
  | wireReq02 (slave : Byte) (addr qty : U16)
  /-- WIRE.REQ.03, the Read Holding Registers request frame (R41, R43). -/
  | wireReq03 (slave : Byte) (addr qty : U16)
  /-- WIRE.REQ.04, the Read Input Registers request frame (R41, R43). -/
  | wireReq04 (slave : Byte) (addr qty : U16)
  /-- WIRE.RSP.NORMAL, a normal response frame (R44). `fc` is the low seven bits of byte 1, whose
  bit 7 is clear; `crc` is the trailer as received, right or wrong (R47). -/
  | wireRspNormal (slave : Byte) (fc : BitVec 7) (count : Byte) (data : List Byte) (crc : U16)
  /-- WIRE.RSP.EXCEPTION, an exception response frame (R45). `fc` is the low seven bits of byte 1,
  whose bit 7 is set; `crc` is the trailer as received, right or wrong (R47). -/
  | wireRspException (slave : Byte) (fc : BitVec 7) (code : Byte) (crc : U16)
  deriving DecidableEq, Repr

/-- The opcodes of R55, one per command. -/
inductive Opcode where
  | crcInit | crcFeed | crcRead | crcCalc
  | reqBuild
  | rxStart | rxByte | rxAbort | rxStatus | rxValidate
  | decRegs | decCoils
  deriving DecidableEq, Repr

end Sys2Proof
end

