-- ==== Sys2Proof/Machine/Dispatch.lean ====
section
/-! DEFINITION. One arm per instruction, each one call of its meaning. -/

namespace Sys2Proof.Machine

def exec (i : Instr) (s : State) : Host.Outcome State Fault Refusal :=
  match i with
  | .crcInit => Sys2Proof.Machine.execCrcInit s
  | .crcFeed b => Sys2Proof.Machine.execCrcFeed b s
  | .crcRead => Sys2Proof.Machine.execCrcRead s
  | .crcCalc bs => Sys2Proof.Machine.execCrcCalc bs s
  | .reqBuild slave fc addr qty => Sys2Proof.Machine.execReqBuild slave fc addr qty s
  | .rxStart q => Sys2Proof.Machine.execRxStart q s
  | .rxByte b => Sys2Proof.Machine.execRxByte b s
  | .rxAbort => Sys2Proof.Machine.execRxAbort s
  | .rxStatus => Sys2Proof.Machine.execRxStatus s
  | .rxValidate => Sys2Proof.Machine.execRxValidate s
  | .decRegs q p => Sys2Proof.Machine.execDecRegs q p s
  | .decCoils q p => Sys2Proof.Machine.execDecCoils q p s
  | .rxChunk bs => Sys2Proof.Machine.execRxChunk bs s
  | .crcSeq bs => Sys2Proof.Machine.execCrcSeq bs s
  | .wireReq01 slave addr qty => Sys2Proof.Machine.execWireReq01 slave addr qty s
  | .wireReq02 slave addr qty => Sys2Proof.Machine.execWireReq02 slave addr qty s
  | .wireReq03 slave addr qty => Sys2Proof.Machine.execWireReq03 slave addr qty s
  | .wireReq04 slave addr qty => Sys2Proof.Machine.execWireReq04 slave addr qty s
  | .wireRspNormal slave fc count data crc => Sys2Proof.Machine.execWireRspNormal slave fc count data crc s
  | .wireRspException slave fc code crc => Sys2Proof.Machine.execWireRspException slave fc code crc s

end Sys2Proof.Machine
end

