-- ==== Sys2Proof/WellFormed.lean ====
section
/-! DEFINITION. Which instructions have an encoding: a `bytes` operand's length fits its 32-bit length
field (spec/30_encoding.md R54), and a normal response carries `2 × q` data bytes for a 16-bit `q`
(R44). The function code of REQ.BUILD is not checked here: every byte can be encoded, and R77 refuses
the command when it runs. -/

namespace Sys2Proof

/-- A `bytes` operand has a length `m < 2^32` (R54, R72). -/
def bytesOperandFits (s : List Byte) : Bool := decide (s.length < 4294967296)

/-- The data of a normal response is `2 × q` bytes, `q` a 16-bit quantity (R44). -/
def responseDataFits (data : List Byte) : Bool :=
  decide (data.length % 2 = 0) && decide (data.length ≤ 131070)

/-- The instruction has an encoding. -/
def Instr.wellFormed : Instr → Bool
  | .crcInit => true
  | .crcFeed _ => true
  | .crcRead => true
  | .crcCalc s => bytesOperandFits s
  | .reqBuild _ _ _ _ => true
  | .rxStart _ => true
  | .rxByte _ => true
  | .rxAbort => true
  | .rxStatus => true
  | .rxValidate => true
  | .decRegs _ p => bytesOperandFits p
  | .decCoils _ p => bytesOperandFits p
  | .rxChunk _ => true
  | .crcSeq _ => true
  | .wireReq01 _ _ _ => true
  | .wireReq02 _ _ _ => true
  | .wireReq03 _ _ _ => true
  | .wireReq04 _ _ _ => true
  | .wireRspNormal _ _ _ data _ => responseDataFits data
  | .wireRspException _ _ _ _ => true

end Sys2Proof
end

