-- ==== Sys2Proof/Decode.lean ====
section
/-! DEFINITION. The two encodings of the block (spec/30_encoding.md): the command interface (R54 to R57)
and the wire frames (R41, R44, R45, R53), each with its decoder; then the encoder. -/

namespace Sys2Proof

open Sys2Proof.Machine

/-! ### The command interface -/

/-- The opcode byte of a command (R55). -/
def Opcode.code : Opcode → Byte
  | .crcInit => 0x01#8
  | .crcFeed => 0x02#8
  | .crcRead => 0x03#8
  | .crcCalc => 0x04#8
  | .reqBuild => 0x10#8
  | .rxStart => 0x20#8
  | .rxByte => 0x21#8
  | .rxAbort => 0x22#8
  | .rxStatus => 0x23#8
  | .rxValidate => 0x24#8
  | .decRegs => 0x30#8
  | .decCoils => 0x31#8

/-- Every opcode of R55. -/
def allOpcodes : List Opcode :=
  [.crcInit, .crcFeed, .crcRead, .crcCalc, .reqBuild, .rxStart, .rxByte, .rxAbort, .rxStatus,
    .rxValidate, .decRegs, .decCoils]

/-- The opcode a byte names, if any; every other byte is illegal (R57). -/
def opcodeOf (b : Byte) : Option Opcode := allOpcodes.find? fun o => o.code == b

/-- Why a byte sequence starts with no command. -/
inductive DecodeError where
  /-- No byte at all. -/
  | empty
  /-- The opcode byte is not in R55 (R57). -/
  | illegalOpcode (b : Byte)
  /-- Fewer bytes than the opcode's layout asks for (R54). -/
  | truncated (o : Opcode)
  deriving DecidableEq, Repr

/-- The operands of a command, in the order and the layout of R55, and the bytes after them. -/
def decodeOperands : Opcode → List Byte → Option (Instr × List Byte)
  | .crcInit, bs => some (.crcInit, bs)
  | .crcFeed, bs => (takeU8 bs).map fun (b, r) => (.crcFeed b, r)
  | .crcRead, bs => some (.crcRead, bs)
  | .crcCalc, bs => (takeBytes bs).map fun (s, r) => (.crcCalc s, r)
  | .reqBuild, bs =>
    (takeU8 bs).bind fun (slave, r₁) =>
      (takeU8 r₁).bind fun (fc, r₂) =>
        (takeU16 r₂).bind fun (addr, r₃) =>
          (takeU16 r₃).map fun (qty, r₄) => (.reqBuild slave fc addr qty, r₄)
  | .rxStart, bs => (takeU16 bs).map fun (q, r) => (.rxStart q, r)
  | .rxByte, bs => (takeU8 bs).map fun (b, r) => (.rxByte b, r)
  | .rxAbort, bs => some (.rxAbort, bs)
  | .rxStatus, bs => some (.rxStatus, bs)
  | .rxValidate, bs => some (.rxValidate, bs)
  | .decRegs, bs =>
    (takeU16 bs).bind fun (q, r₁) => (takeBytes r₁).map fun (p, r₂) => (.decRegs q p, r₂)
  | .decCoils, bs =>
    (takeU16 bs).bind fun (q, r₁) => (takeBytes r₁).map fun (p, r₂) => (.decCoils q p, r₂)

/-- The command at the head of a byte sequence, and the bytes after it (R54, R61). Total: every
sequence is read or refused by name. -/
def decode : List Byte → Except DecodeError (Instr × List Byte)
  | [] => .error .empty
  | b :: bs =>
    match opcodeOf b with
    | none => .error (.illegalOpcode b)
    | some o =>
      match decodeOperands o bs with
      | none => .error (.truncated o)
      | some r => .ok r

/-! ### The wire frames -/

/-- A request frame: exactly eight bytes, an admitted function code, the right trailer
(R41, R43, R47). -/
def decodeRequestFrame : List Byte → Option Instr
  | [slave, fc, aH, aL, qH, qL, cL, cH] =>
    if le16 cL cH = crc16 [slave, fc, aH, aL, qH, qL] then
      match fc.toNat with
      | 0x01 => some (.wireReq01 slave (be16 aH aL) (be16 qH qL))
      | 0x02 => some (.wireReq02 slave (be16 aH aL) (be16 qH qL))
      | 0x03 => some (.wireReq03 slave (be16 aH aL) (be16 qH qL))
      | 0x04 => some (.wireReq04 slave (be16 aH aL) (be16 qH qL))
      | _ => none
    else none
  | _ => none

/-- The response frame at the head of a byte sequence, for a request of quantity `q`, and the bytes
after it: bit 7 of byte 1 decides between 5 bytes and `5 + 2 × q` (R44, R45, R46, R53). The trailer
is read, not checked (R47); the parser checks it. -/
def decodeResponseFrame (q : U16) : List Byte → Option (Instr × List Byte)
  | slave :: f :: code :: rest =>
    if exceptionBit f then
      match rest with
      | cL :: cH :: after =>
        some (.wireRspException slave (f.setWidth 7) code (le16 cL cH), after)
      | _ => none
    else
      match rest.drop (2 * q.toNat) with
      | cL :: cH :: after =>
        some (.wireRspNormal slave (f.setWidth 7) code (rest.take (2 * q.toNat)) (le16 cL cH), after)
      | _ => none
  | _ => none

/-! ### The encoder -/

/-- A command that is one byte and its operand (R55). -/
def encodeRxByte (b : Byte) : List Byte := [Opcode.rxByte.code, b]

/-- CRC.FEED as bytes (R55). -/
def encodeCrcFeed (b : Byte) : List Byte := [Opcode.crcFeed.code, b]

/-- The first six bytes of a request frame (R41, R42). -/
def requestFields (slave fc : Byte) (addr qty : U16) : List Byte :=
  [slave, fc] ++ u16Bytes addr ++ u16Bytes qty

/-- The words of an instruction. A command's bytes are those of R55; a pseudo-instruction's are those
of its expansion (R63); a wire form's are the bytes of the frame on the wire (R41, R44, R45). -/
def encode : Instr → List Byte
  | .crcInit => [Opcode.crcInit.code]
  | .crcFeed b => encodeCrcFeed b
  | .crcRead => [Opcode.crcRead.code]
  | .crcCalc s => Opcode.crcCalc.code :: bytesField s
  | .reqBuild slave fc addr qty =>
    Opcode.reqBuild.code :: slave :: fc :: (u16Bytes addr ++ u16Bytes qty)
  | .rxStart q => Opcode.rxStart.code :: u16Bytes q
  | .rxByte b => encodeRxByte b
  | .rxAbort => [Opcode.rxAbort.code]
  | .rxStatus => [Opcode.rxStatus.code]
  | .rxValidate => [Opcode.rxValidate.code]
  | .decRegs q p => Opcode.decRegs.code :: (u16Bytes q ++ bytesField p)
  | .decCoils q p => Opcode.decCoils.code :: (u16Bytes q ++ bytesField p)
  | .rxChunk bs => bs.flatMap encodeRxByte
  | .crcSeq bs => Opcode.crcInit.code :: bs.flatMap encodeCrcFeed
  | .wireReq01 slave addr qty => withTrailer (requestFields slave 0x01#8 addr qty)
  | .wireReq02 slave addr qty => withTrailer (requestFields slave 0x02#8 addr qty)
  | .wireReq03 slave addr qty => withTrailer (requestFields slave 0x03#8 addr qty)
  | .wireReq04 slave addr qty => withTrailer (requestFields slave 0x04#8 addr qty)
  | .wireRspNormal slave fc count data crc =>
    [slave, functionByte false fc, count] ++ data ++ [lo crc, hi crc]
  | .wireRspException slave fc code crc =>
    [slave, functionByte true fc, code] ++ [lo crc, hi crc]

/-- The instruction is one of the twelve commands of R55 (the others have no opcode, R63). -/
def Instr.isCommand : Instr → Bool
  | .crcInit => true
  | .crcFeed _ => true
  | .crcRead => true
  | .crcCalc _ => true
  | .reqBuild _ _ _ _ => true
  | .rxStart _ => true
  | .rxByte _ => true
  | .rxAbort => true
  | .rxStatus => true
  | .rxValidate => true
  | .decRegs _ _ => true
  | .decCoils _ _ => true
  | .rxChunk _ => false
  | .crcSeq _ => false
  | .wireReq01 _ _ _ => false
  | .wireReq02 _ _ _ => false
  | .wireReq03 _ _ _ => false
  | .wireReq04 _ _ _ => false
  | .wireRspNormal _ _ _ _ _ => false
  | .wireRspException _ _ _ _ => false

/-- The commands a pseudo-instruction stands for (R63); every other instruction stands for itself. -/
def expansion (i : Instr) : List Instr :=
  match i with
  | .rxChunk bs => bs.map .rxByte
  | .crcSeq bs => .crcInit :: bs.map .crcFeed
  | .crcInit | .crcFeed _ | .crcRead | .crcCalc _ | .reqBuild _ _ _ _ | .rxStart _ | .rxByte _
  | .rxAbort | .rxStatus | .rxValidate | .decRegs _ _ | .decCoils _ _ | .wireReq01 _ _ _
  | .wireReq02 _ _ _ | .wireReq03 _ _ _ | .wireReq04 _ _ _ | .wireRspNormal _ _ _ _ _
  | .wireRspException _ _ _ _ => [i]

/-! ### Words numbered as the opcode table numbers them -/

/-- The bytes of a word whose bits 7 to 0 are the first byte. -/
def wordBytes : Nat → Nat → List Byte
  | 0, _ => []
  | n + 1, w => BitVec.ofNat 8 w :: wordBytes n (w / 256)

/-- `bs` with zero bytes after it, up to `n` bytes. -/
def padTo (n : Nat) (bs : List Byte) : List Byte := bs ++ List.replicate (n - bs.length) 0#8

/-- How many bytes a command has before the bytes of a `bytes` operand (R55). -/
def Opcode.fixedLength : Opcode → Nat
  | .crcInit => 1
  | .crcFeed => 2
  | .crcRead => 1
  | .crcCalc => 5
  | .reqBuild => 7
  | .rxStart => 3
  | .rxByte => 2
  | .rxAbort => 1
  | .rxStatus => 1
  | .rxValidate => 1
  | .decRegs => 7
  | .decCoils => 7

/-- How many bytes its `bytes` operand has, read from the length field (R54, R61). -/
def Opcode.variableLength (o : Opcode) (bs : List Byte) : Nat :=
  match o with
  | .crcCalc => u32Of (byteAt bs 1) (byteAt bs 2) (byteAt bs 3) (byteAt bs 4)
  | .decRegs => u32Of (byteAt bs 3) (byteAt bs 4) (byteAt bs 5) (byteAt bs 6)
  | .decCoils => u32Of (byteAt bs 3) (byteAt bs 4) (byteAt bs 5) (byteAt bs 6)
  | _ => 0

/-- The bytes of the command whose first `nbits` bits are `w`, every later bit 0. -/
def tableBytes (nbits w : Nat) : List Byte :=
  let bs := wordBytes ((nbits + 7) / 8) w
  match opcodeOf (byteAt bs 0) with
  | none => bs
  | some o => padTo (o.fixedLength + o.variableLength bs) bs

/-- The instruction the decoder reads from a word numbered as spec/opcode_table.json numbers it. The
word is one of the command interface; the table's match of a wire row is over byte index 1 of a frame
and names no command word (log entry 12). -/
def decodeTableWord (nbits w : Nat) : Option Instr :=
  match decode (tableBytes nbits w) with
  | .ok (i, []) => some i
  | _ => none

end Sys2Proof
end

