-- ==== Sys2Proof/Machine/Fetch.lean ====
section
/-! DEFINITION. Taking the host's next input (spec/10_state.md R13, spec/20_memory.md R37). -/

namespace Sys2Proof.Machine

/-- What the next step does. -/
inductive Fetched where
  /-- No input is pending: the block waits for the host. -/
  | idle
  /-- A reset, on this state. -/
  | reset (s : State)
  /-- A command, on this state. -/
  | run (i : Instr) (s : State)
  /-- Bytes that are no command. -/
  | stop (r : Refusal)
  deriving DecidableEq, Repr

/-- The command that is exactly these bytes (R54), or why there is none (R57, log entry 3). -/
def commandOf (bs : List Byte) : Except Refusal Instr :=
  match decode bs with
  | .ok (i, []) => .ok i
  | .ok (_, _ :: _) => .error .malformedCommand
  | .error (.illegalOpcode _) => .error .illegalOpcode
  | .error (.truncated _) => .error .malformedCommand
  | .error .empty => .error .malformedCommand

/-- Take the oldest input. -/
def fetch (s : State) : Fetched :=
  match s.inputs with
  | [] => .idle
  | .reset :: rest => .reset { s with inputs := rest }
  | .command bs :: rest =>
    match commandOf bs with
    | .ok i => .run i { s with inputs := rest }
    | .error r => .stop r

/-- The inputs a host gives to run a list of instructions, one command after the other; a
pseudo-instruction is issued as the commands it stands for (R63). -/
def issue (is : List Instr) : List HostInput :=
  (is.flatMap expansion).map fun i => .command (encode i)

end Sys2Proof.Machine
end

