-- ==== Sys2Proof/Machine/Step.lean ====
section
/-! DEFINITION. One step: the host's next input, whole and atomic (spec/20_memory.md R35, R37). -/

namespace Sys2Proof.Machine

/-- One step. With no input pending the block does nothing (log entry 2). -/
def step (s : State) : Host.Outcome State Fault Refusal :=
  match fetch s with
  | .idle => .next s
  | .reset t => .next (resetRegisters t)
  | .run i t => exec i t
  | .stop r => .refused r

/-- The state in which the host's next input is the command whose first `nbits` bits are `w`
(log entry 1). -/
def State.withFetchWord (s : State) (nbits w : Nat) : State :=
  { s with inputs := .command (tableBytes nbits w) :: s.inputs }

end Sys2Proof.Machine
end

