-- ==== Sys2Proof/Machine/Assembly.lean ====
section
/-! DEFINITION. The assembly syntax of spec/30_encoding.md R62, read from the characters of a line
(log entry 16). -/

namespace Sys2Proof.Machine

/-- The digits of R62's numbers and byte pairs, each at the place of its value; decimal uses the first
ten. -/
def digitRow : List Char := "0123456789ABCDEF".toList

/-- The same digits in small letters (log entry 16). -/
def smallDigitRow : List Char := "0123456789abcdef".toList

/-- The value of a digit: its place in one of the two rows. -/
def digitOf (c : Char) : Option Nat := (digitRow.idxOf? c).or (smallDigitRow.idxOf? c)

/-- Digits in a base, most significant first, after the value `acc`. -/
def readDigits (base : Nat) : Nat → List Char → Option Nat
  | acc, [] => some acc
  | acc, c :: cs =>
    match digitOf c with
    | some d => if d < base then readDigits base (acc * base + d) cs else none
    | none => none

/-- A number, "in hexadecimal with `0x` or in decimal" (R62). -/
def readNumber : List Char → Option Nat
  | [] => none
  | ['0', 'x'] => none
  | '0' :: 'x' :: cs => readDigits 16 0 cs
  | cs => readDigits 10 0 cs

/-- A number of at most `w` bits, as an operand. -/
def readOperand (w : Nat) (cs : List Char) : Option (BitVec w) :=
  (readNumber cs).bind fun n => if n < 2 ^ w then some (BitVec.ofNat w n) else none

/-- The characters without the spaces before the first other one. -/
def dropSpaces (cs : List Char) : List Char := cs.dropWhile (· = ' ')

/-- The characters without the spaces at both ends. -/
def trimSpaces (cs : List Char) : List Char := (dropSpaces (dropSpaces cs).reverse).reverse

/-- The left brace of a `bytes` operand. -/
def leftBrace : Char := Char.ofNat 123

/-- The right brace of a `bytes` operand. -/
def rightBrace : Char := Char.ofNat 125

/-- Hexadecimal byte pairs up to the right brace, which ends the operand. -/
def readPairs : List Char → Option (List Byte)
  | [] => none
  | [c] => if c = rightBrace then some [] else none
  | c :: d :: cs =>
    if c = ' ' then readPairs (d :: cs)
    else
      match readDigits 16 0 [c, d] with
      | some n => (readPairs cs).map (BitVec.ofNat 8 n :: ·)
      | none => none

/-- A `bytes` operand, "hexadecimal byte pairs inside braces, first byte first" (R62). -/
def readBytes : List Char → Option (List Byte)
  | c :: cs => if c = leftBrace then readPairs cs else none
  | [] => none

/-- The characters cut at every comma. -/
def splitCommas : List Char → List (List Char)
  | [] => [[]]
  | c :: cs =>
    match splitCommas cs with
    | [] => [[]]
    | p :: ps => if c = ',' then [] :: p :: ps else (c :: p) :: ps

/-- The operands after a mnemonic; none, when nothing but spaces is there. -/
def operandsOf (cs : List Char) : List (List Char) :=
  if trimSpaces cs = [] then [] else (splitCommas cs).map trimSpaces

/-- A mnemonic of R55 or R63, "case as written", with its operands. -/
def readInstr (mnemonic : List Char) (ops : List (List Char)) : Option Instr :=
  if mnemonic = "CRC.INIT".toList then
    match ops with
    | [] => some .crcInit
    | _ => none
  else if mnemonic = "CRC.FEED".toList then
    match ops with
    | [b] => (readOperand 8 b).map .crcFeed
    | _ => none
  else if mnemonic = "CRC.READ".toList then
    match ops with
    | [] => some .crcRead
    | _ => none
  else if mnemonic = "CRC.CALC".toList then
    match ops with
    | [s] => (readBytes s).map .crcCalc
    | _ => none
  else if mnemonic = "REQ.BUILD".toList then
    match ops with
    | [slave, fc, addr, qty] =>
      (readOperand 8 slave).bind fun slave =>
        (readOperand 8 fc).bind fun fc =>
          (readOperand 16 addr).bind fun addr =>
            (readOperand 16 qty).map fun qty => .reqBuild slave fc addr qty
    | _ => none
  else if mnemonic = "RX.START".toList then
    match ops with
    | [q] => (readOperand 16 q).map .rxStart
    | _ => none
  else if mnemonic = "RX.BYTE".toList then
    match ops with
    | [b] => (readOperand 8 b).map .rxByte
    | _ => none
  else if mnemonic = "RX.ABORT".toList then
    match ops with
    | [] => some .rxAbort
    | _ => none
  else if mnemonic = "RX.STATUS".toList then
    match ops with
    | [] => some .rxStatus
    | _ => none
  else if mnemonic = "RX.VALIDATE".toList then
    match ops with
    | [] => some .rxValidate
    | _ => none
  else if mnemonic = "DEC.REGS".toList then
    match ops with
    | [q, p] => (readOperand 16 q).bind fun q => (readBytes p).map fun p => .decRegs q p
    | _ => none
  else if mnemonic = "DEC.COILS".toList then
    match ops with
    | [q, p] => (readOperand 16 q).bind fun q => (readBytes p).map fun p => .decCoils q p
    | _ => none
  else if mnemonic = "RX.CHUNK".toList then
    match ops with
    | [bs] => (readBytes bs).map .rxChunk
    | _ => none
  else if mnemonic = "CRC.SEQ".toList then
    match ops with
    | [bs] => (readBytes bs).map .crcSeq
    | _ => none
  else none

/-- The characters of a line before its comment (R62). -/
def dropComment (line : List Char) : List Char := line.takeWhile (· ≠ ';')

/-- One line: an instruction, or nothing on a line without one; `none` when it is not of this syntax. -/
def assembleLine (line : List Char) : Option (List Instr) :=
  let cs := trimSpaces (dropComment line)
  match cs with
  | [] => some []
  | _ => (readInstr (cs.takeWhile (· ≠ ' ')) (operandsOf (cs.dropWhile (· ≠ ' ')))).map ([·])

/-- A program, "run from its first line to its last" (R62, R13). -/
def assemble : List (List Char) → Option (List Instr)
  | [] => some []
  | l :: ls => (assembleLine l).bind fun i => (assemble ls).map (i ++ ·)

end Sys2Proof.Machine
end

