-- ==== Sys2Proof/Machine/Results.lean ====
section
/-! DEFINITION. Status codes (spec/60_exceptions.md R110) and the byte layout of results
(spec/30_encoding.md R56). -/

namespace Sys2Proof.Machine

/-- The encoding of `RX_STATE` (R16). -/
def RxState.code : RxState → BitVec 2
  | .idle => 0#2
  | .receiving => 1#2
  | .complete => 2#2

/-- The status code of a result that has one (R110). -/
def statusCode : Result → Option Byte
  | .frame _ => some 0x00#8
  | .payload _ => some 0x00#8
  | .frameTooLong _ => some 0x01#8
  | .crcMismatch _ _ => some 0x02#8
  | .modbusException _ _ => some 0x03#8
  | _ => none

/-- A bit as a byte, 0x00 or 0x01 (R56). -/
def bitByte (b : Bool) : Byte := if b then 0x01#8 else 0x00#8

/-- The byte layout of a result (R56). -/
def resultBytes : Result → List Byte
  | .none => []
  | .crc v => u16Bytes v
  | .frame f => 0x00#8 :: f
  | .frameTooLong _ => [0x01#8]
  | .taken t => [bitByte t]
  | .status state exc len expect qty =>
    [state.code.setWidth 8, bitByte exc] ++ u32Bytes len ++ u32Bytes expect.toNat ++ u16Bytes qty
  | .payload p => 0x00#8 :: bytesField p
  | .crcMismatch computed received => 0x02#8 :: (u16Bytes computed ++ u16Bytes received)
  | .modbusException code label => [0x03#8, code, labelId label]
  | .regs vs => vs.flatMap u16Bytes
  | .coils vs => vs.map bitByte

end Sys2Proof.Machine
end

