-- ==== Sys2Proof/Safety.lean ====
section
/-! DEFINITION. The terms claims are stated in: the receiver invariants (spec/10_state.md R21), what two
states share, sequences of commands (spec/20_memory.md R37), reachable states, and one exchange of a host
that keeps its duties (spec/60_exceptions.md R124). -/

namespace Sys2Proof.Machine

/-- The fourth point of R21: the latch says what byte 1 says, and the expected length follows it. -/
def State.Tracks (s : State) : Prop :=
  (s.rxExc = true ↔ 2 ≤ s.rxBuf.length ∧ (byteAt s.rxBuf 1).getLsbD 7 = true) ∧
  (s.rxExc = true → s.rxExpect.toNat = 5) ∧
  (s.rxExc = false → s.rxExpect.toNat = 5 + 2 * s.rxQty.toNat)

/-- The receiver invariants (R21). -/
def State.Inv (s : State) : Prop :=
  match s.rxState with
  | .idle => s.rxBuf = [] ∧ s.rxExc = false ∧ s.rxExpect = 0#18 ∧ s.rxQty = 0#16
  | .receiving => s.rxBuf.length < s.rxExpect.toNat ∧ s.Tracks
  | .complete => s.rxBuf.length = s.rxExpect.toNat ∧ s.Tracks

/-- The five `RX_*` registers of the two states agree. -/
def State.SameReceiver (s t : State) : Prop :=
  t.rxState = s.rxState ∧ t.rxQty = s.rxQty ∧ t.rxExpect = s.rxExpect ∧ t.rxExc = s.rxExc ∧
    t.rxBuf = s.rxBuf

/-- All six registers of the two states agree. -/
def State.SameRegisters (s t : State) : Prop := t.crcAcc = s.crcAcc ∧ s.SameReceiver t

/-- Commands one after the other, each on the state the one before it left (R37). A stop ends the
sequence. -/
def execAll : List Instr → State → Host.Outcome State Fault Refusal
  | [], s => .next s
  | i :: is, s =>
    match exec i s with
    | .next t => execAll is t
    | .fault r => .fault r
    | .refused r => .refused r

/-- `n` steps; a stop ends the run. -/
def stepN : Nat → State → Host.Outcome State Fault Refusal
  | 0, s => .next s
  | n + 1, s =>
    match step s with
    | .next t => stepN n t
    | .fault r => .fault r
    | .refused r => .refused r

/-- States the block can be in: reset, steps, and inputs the host adds behind the pending ones. -/
inductive Reachable : State → Prop where
  | reset : Reachable State.reset
  | input (s : State) (x : HostInput) : Reachable s → Reachable { s with inputs := s.inputs ++ [x] }
  | step (s t : State) : Reachable s → step s = .next t → Reachable t

/-- A safe state: its next step neither faults nor is refused. -/
def State.Safe (s : State) : Prop := ∃ t, step s = .next t

/-- One exchange of a host that keeps its duties (R124): build, arm with the same quantity, deliver the
response, judge. -/
def exchange (slave fc : Byte) (addr q : U16) (response : List Byte) : List Instr :=
  [.reqBuild slave fc addr q, .rxStart q, .rxChunk response, .rxValidate]

end Sys2Proof.Machine
end

