-- ==== Sys2Proof/Certificates/Slice0/Obligations.lean ====
section
/-! DEFINITION. The statements for the provers, in the order of OBLIGATIONS.json. -/

open Sys2Proof Sys2Proof.Machine

/-! ### Reset and the step -/

/-- R127: a reset sets every register to the value of R14, the machine's state after reset holds those
values, and (the spec's own inference, R127's last sentence) they are those CRC.INIT then RX.ABORT leave,
from any state. -/
def Obligations.ResetSetsEveryRegister : Prop :=
  ∀ (s : State) (rest : List HostInput), s.inputs = .reset :: rest →
    ∃ t, step s = .next t ∧ State.SameRegisters State.reset t ∧
      (t.crcAcc = 0xFFFF#16 ∧ t.rxState = .idle ∧ t.rxQty = 0#16 ∧ t.rxExpect = 0#18 ∧
        t.rxExc = false ∧ t.rxBuf = []) ∧
      ∀ u : State, ∃ v, execAll [.crcInit, .rxAbort] u = .next v ∧ State.SameRegisters t v

/-- The model's choice for a reset (log entry 11): it takes one input, leaves the others pending and
keeps the record of results; and reset twice is reset once (R129). -/
def Obligations.ResetKeepsHostSide : Prop :=
  ∀ (s : State) (rest : List HostInput), s.inputs = .reset :: rest →
    ∃ t, step s = .next t ∧ t.inputs = rest ∧ t.results = s.results ∧
      step { t with inputs := .reset :: rest } = .next t

/-- A step runs the decoded command on the state with that input taken (R13, R37), and does nothing
when no input is pending (the model's choice, log entry 2). -/
def Obligations.StepRunsDecodedCommand : Prop :=
  (∀ (s : State) (bs : List Byte) (rest : List HostInput) (i : Instr),
    s.inputs = .command bs :: rest → decode bs = .ok (i, []) →
      step s = exec i { s with inputs := rest }) ∧
  ∀ s : State, s.inputs = [] → step s = .next s

/-- R37: commands issued one after the other, a pseudo-instruction as those it stands for (R63), run as
the command rules applied in issue order, whatever is pending behind them. -/
def Obligations.IssuedCommandsRunInOrder : Prop :=
  ∀ (is : List Instr) (s : State) (rest : List HostInput),
    (∀ i ∈ is.flatMap expansion, i.isCommand = true ∧ i.wellFormed = true) →
      stepN (is.flatMap expansion).length { s with inputs := issue is ++ rest } =
        execAll is { s with inputs := rest }

/-- R57: a command whose opcode byte is none of R55's is refused, and only then is that the reason. -/
def Obligations.IllegalOpcodesRefused : Prop :=
  ∀ (s : State) (b : Byte) (bs : List Byte) (rest : List HostInput),
    s.inputs = .command (b :: bs) :: rest →
      (step s = .refused .illegalOpcode ↔
        b.toNat = 0x00 ∨ (0x05 ≤ b.toNat ∧ b.toNat ≤ 0x0F) ∨ (0x11 ≤ b.toNat ∧ b.toNat ≤ 0x1F) ∨
          (0x25 ≤ b.toNat ∧ b.toNat ≤ 0x2F) ∨ (0x32 ≤ b.toNat ∧ b.toNat ≤ 0xFF))

/-- The model's choice (log entry 3): a command with bytes missing or bytes over is refused. -/
def Obligations.MalformedCommandsRefused : Prop :=
  ∀ (s : State) (i : Instr) (bs : List Byte) (rest : List HostInput),
    i.isCommand = true → i.wellFormed = true → s.inputs = .command bs :: rest →
      ((bs <+: encode i ∧ bs ≠ encode i) ∨ (encode i <+: bs ∧ bs ≠ encode i)) →
        step s = .refused .malformedCommand

/-! ### Encodings -/

/-- A few words of spec/95_test_vectors.md section 3 decode to the commands they stand for. -/
def Obligations.ProgramWordsDecode : Prop :=
  decode [0x10#8, 0x01#8, 0x03#8, 0x00#8, 0x00#8, 0x00#8, 0x02#8] =
      .ok (.reqBuild 0x01#8 0x03#8 0x0000#16 0x0002#16, []) ∧
    decode [0x20#8, 0x00#8, 0x02#8] = .ok (.rxStart 2#16, []) ∧
    decode [0x21#8, 0x83#8] = .ok (.rxByte 0x83#8, []) ∧
    decode [0x04#8, 0x00#8, 0x00#8, 0x00#8, 0x03#8, 0x31#8, 0x32#8, 0x33#8] =
      .ok (.crcCalc [0x31#8, 0x32#8, 0x33#8], []) ∧
    decode [0x30#8, 0x00#8, 0x01#8, 0x00#8, 0x00#8, 0x00#8, 0x05#8, 0x01#8, 0x03#8, 0x02#8, 0xFF#8,
        0xFF#8] = .ok (.decRegs 1#16 [0x01#8, 0x03#8, 0x02#8, 0xFF#8, 0xFF#8], []) ∧
    decodeRequestFrame [0x01#8, 0x03#8, 0x00#8, 0x00#8, 0x00#8, 0x02#8, 0xC4#8, 0x0B#8] =
      some (.wireReq03 0x01#8 0x0000#16 0x0002#16) ∧
    decodeResponseFrame 2#16 [0x01#8, 0x83#8, 0x02#8, 0xC0#8, 0xF1#8] =
      some (.wireRspException 0x01#8 0x03#7 0x02#8 0xF1C0#16, [])

/-- R54, over the layouts of R55: the opcode byte, then the operands in order, `u16` high byte first,
`bytes` as a 32-bit length high byte first and that many bytes; the bytes after them are left. -/
def Obligations.CommandLayouts : Prop :=
  ∀ rest : List Byte,
    decode (0x01#8 :: rest) = .ok (.crcInit, rest) ∧
    (∀ b, decode (0x02#8 :: b :: rest) = .ok (.crcFeed b, rest)) ∧
    decode (0x03#8 :: rest) = .ok (.crcRead, rest) ∧
    (∀ (m3 m2 m1 m0 : Byte) (s : List Byte),
      s.length = m3.toNat * 2 ^ 24 + m2.toNat * 2 ^ 16 + m1.toNat * 2 ^ 8 + m0.toNat →
        decode (0x04#8 :: m3 :: m2 :: m1 :: m0 :: (s ++ rest)) = .ok (.crcCalc s, rest)) ∧
    (∀ (slave fc aH aL qH qL : Byte) (addr qty : U16),
      addr.toNat = aH.toNat * 256 + aL.toNat → qty.toNat = qH.toNat * 256 + qL.toNat →
        decode (0x10#8 :: slave :: fc :: aH :: aL :: qH :: qL :: rest) =
          .ok (.reqBuild slave fc addr qty, rest)) ∧
    (∀ (qH qL : Byte) (q : U16), q.toNat = qH.toNat * 256 + qL.toNat →
      decode (0x20#8 :: qH :: qL :: rest) = .ok (.rxStart q, rest)) ∧
    (∀ b, decode (0x21#8 :: b :: rest) = .ok (.rxByte b, rest)) ∧
    decode (0x22#8 :: rest) = .ok (.rxAbort, rest) ∧
    decode (0x23#8 :: rest) = .ok (.rxStatus, rest) ∧
    decode (0x24#8 :: rest) = .ok (.rxValidate, rest) ∧
    (∀ (qH qL m3 m2 m1 m0 : Byte) (q : U16) (p : List Byte),
      q.toNat = qH.toNat * 256 + qL.toNat →
      p.length = m3.toNat * 2 ^ 24 + m2.toNat * 2 ^ 16 + m1.toNat * 2 ^ 8 + m0.toNat →
        decode (0x30#8 :: qH :: qL :: m3 :: m2 :: m1 :: m0 :: (p ++ rest)) =
            .ok (.decRegs q p, rest) ∧
          decode (0x31#8 :: qH :: qL :: m3 :: m2 :: m1 :: m0 :: (p ++ rest)) =
            .ok (.decCoils q p, rest))

/-- Decoding the encoding of a well-formed command gives it back, with every operand, and leaves what
follows it. -/
def Obligations.CommandsDecodeAsEncoded : Prop :=
  ∀ (i : Instr) (rest : List Byte), i.isCommand = true → i.wellFormed = true →
    decode (encode i ++ rest) = .ok (i, rest)

/-- Every command that decodes is a well-formed command, and the bytes read are its encoding: no two
byte sequences decode to one command. -/
def Obligations.DecodedCommandsReencode : Prop :=
  ∀ (bs rest : List Byte) (i : Instr), decode bs = .ok (i, rest) →
    i.isCommand = true ∧ i.wellFormed = true ∧ bs = encode i ++ rest

/-- The eight bytes of a request frame and the request they stand for determine each other. -/
def Obligations.RequestFramesRoundTrip : Prop :=
  (∀ (slave : Byte) (addr qty : U16),
    decodeRequestFrame (encode (.wireReq01 slave addr qty)) = some (.wireReq01 slave addr qty) ∧
    decodeRequestFrame (encode (.wireReq02 slave addr qty)) = some (.wireReq02 slave addr qty) ∧
    decodeRequestFrame (encode (.wireReq03 slave addr qty)) = some (.wireReq03 slave addr qty) ∧
    decodeRequestFrame (encode (.wireReq04 slave addr qty)) = some (.wireReq04 slave addr qty)) ∧
  ∀ (f : List Byte) (i : Instr), decodeRequestFrame f = some i → encode i = f

/-- R53: the end of a response frame is found from the quantity and bit 7 of byte 1 alone, and the
frame's fields come back from its bytes; every frame read is the encoding of what it is read as. -/
def Obligations.ResponseFramesRoundTrip : Prop :=
  (∀ (q : U16) (slave : Byte) (fc : BitVec 7) (count : Byte) (data : List Byte) (crc : U16)
    (rest : List Byte), data.length = 2 * q.toNat →
      decodeResponseFrame q (encode (.wireRspNormal slave fc count data crc) ++ rest) =
        some (.wireRspNormal slave fc count data crc, rest)) ∧
  (∀ (q : U16) (slave : Byte) (fc : BitVec 7) (code : Byte) (crc : U16) (rest : List Byte),
      decodeResponseFrame q (encode (.wireRspException slave fc code crc) ++ rest) =
        some (.wireRspException slave fc code crc, rest)) ∧
  ∀ (q : U16) (bs rest : List Byte) (i : Instr), decodeResponseFrame q bs = some (i, rest) →
    i.wellFormed = true ∧ bs = encode i ++ rest ∧
      (encode i).length = if (byteAt bs 1).getLsbD 7 then 5 else 5 + 2 * q.toNat

/-! ### The CRC generator -/

/-- R66 to R68: one round, eight rounds after the byte enters at the low end, and the sequence from
0xFFFF without a final XOR. -/
def Obligations.CrcAlgorithm : Prop :=
  (∀ acc : U16, crcRound acc = if acc.getLsbD 0 then (acc >>> 1) ^^^ 0xA001#16 else acc >>> 1) ∧
  (∀ (acc : U16) (b : Byte), crcStep acc b = crcRound^[8] (acc ^^^ b.setWidth 16)) ∧
  crcStep 0xFFFF#16 0x01#8 = 0x807E#16 ∧
  crc16 [] = 0xFFFF#16 ∧
  ∀ (s : List Byte) (b : Byte), crc16 (s ++ [b]) = crcStep (crc16 s) b

/-- R69 to R71: CRC.INIT, CRC.FEED and CRC.READ complete in every state, with these states after them,
and the rules' worked examples. -/
def Obligations.AccumulatorCommands : Prop :=
  (∀ s : State, exec .crcInit s =
    .next { s with crcAcc := 0xFFFF#16, results := s.results ++ [.none] }) ∧
  (∀ (s : State) (b : Byte), exec (.crcFeed b) s =
    .next { s with crcAcc := crcStep s.crcAcc b, results := s.results ++ [.none] }) ∧
  crcStep 0xFFFF#16 0x01#8 = 0x807E#16 ∧ crcStep 0xFFFF#16 0x00#8 = 0x40BF#16 ∧
  (∀ s : State, exec .crcRead s = .next { s with results := s.results ++ [.crc s.crcAcc] }) ∧
  ∀ s : State, ∃ t,
    execAll [.crcSeq [0x01#8, 0x03#8, 0x00#8, 0x00#8, 0x00#8, 0x02#8], .crcRead] s = .next t ∧
      t.results.getLast? = some (.crc 0x0BC4#16)

/-- R72: CRC.CALC returns the whole sequence's CRC and reads or writes no register; it, REQ.BUILD and
RX.VALIDATE leave `CRC_ACC` alone. -/
def Obligations.CrcCalcOnItsOwnDatapath : Prop :=
  (∀ (s : State) (bs : List Byte), exec (.crcCalc bs) s =
    .next { s with results := s.results ++ [.crc (crc16 bs)] }) ∧
  crc16 [] = 0xFFFF#16 ∧ crc16 [0x01#8, 0x03#8, 0x00#8, 0x00#8, 0x00#8, 0x02#8] = 0x0BC4#16 ∧
  (∀ (s t : State) (slave fc : Byte) (addr qty : U16),
    exec (.reqBuild slave fc addr qty) s = .next t → t.crcAcc = s.crcAcc) ∧
  ∀ s t : State, exec .rxValidate s = .next t → t.crcAcc = s.crcAcc

/-- R73 (derived there from R67 to R72): accumulating a sequence and computing it whole give the same
CRC. -/
def Obligations.AccumulatingEqualsComputingWhole : Prop :=
  (∀ (s : State) (bs : List Byte),
    ∃ t u, execAll ([.crcInit] ++ bs.map .crcFeed ++ [.crcRead]) s = .next t ∧
      t.results.getLast? = some (.crc (crc16 bs)) ∧
      exec (.crcCalc bs) s = .next u ∧ u.results.getLast? = some (.crc (crc16 bs))) ∧
  ∀ (bs : List Byte) (b : Byte), crc16 (bs ++ [b]) = crcStep (crc16 bs) b

/-- R63: the pseudo-instructions are their expansions: the same state after them, the same bytes; and
CRC.SEQ leaves the sequence's CRC in `CRC_ACC` and the receiver alone. -/
def Obligations.PseudoInstructionsAreExpansions : Prop :=
  ∀ (s : State) (bs : List Byte),
    exec (.rxChunk bs) s = execAll (bs.map .rxByte) s ∧
    exec (.crcSeq bs) s = execAll (.crcInit :: bs.map .crcFeed) s ∧
    encode (.rxChunk bs) = (bs.map .rxByte).flatMap encode ∧
    encode (.crcSeq bs) = encode .crcInit ++ (bs.map .crcFeed).flatMap encode ∧
    exec (.rxChunk []) s = .next s ∧
    ∃ t, exec (.crcSeq bs) s = .next t ∧ t.crcAcc = crc16 bs ∧ s.SameReceiver t ∧
      t.inputs = s.inputs ∧ t.results = s.results ++ List.replicate (bs.length + 1) .none

/-- R74 (general knowledge in the spec, a theorem about R68): a frame with its correct little-endian
trailer has CRC zero over its whole length, and only that trailer gives zero. -/
def Obligations.CrcResidue : Prop :=
  ∀ (s : List Byte) (cL cH : Byte),
    crc16 (s ++ [cL, cH]) = 0x0000#16 ↔ le16 cL cH = crc16 s

/-- R75, one byte: a frame that differs from a correctly trailed one in one byte fails the CRC
comparison. -/
def Obligations.OneByteErrorDetected : Prop :=
  ∀ (f : List Byte) (j : Nat) (b : Byte), j < (withTrailer f).length → byteAt (withTrailer f) j ≠ b →
    crc16 (((withTrailer f).set j b).take f.length) ≠
      le16 (byteAt ((withTrailer f).set j b) f.length)
        (byteAt ((withTrailer f).set j b) (f.length + 1))

/-- R75, one burst: three neighbouring bytes XORed with a pattern whose set bits lie within 16
consecutive ones, counted from the least significant bit of the first byte (the order the CRC takes
them in), make a correctly trailed frame fail the CRC comparison. -/
def Obligations.SixteenBitBurstDetected : Prop :=
  ∀ (f pre post : List Byte) (x y z : Byte) (p : BitVec 16) (o : Nat),
    withTrailer f = pre ++ [x, y, z] ++ post → p ≠ 0#16 → o ≤ 8 →
      ∀ e : BitVec 24, e = p.setWidth 24 <<< o →
        ∀ g : List Byte, g = pre ++ [x ^^^ e.extractLsb' 0 8, y ^^^ e.extractLsb' 8 8,
            z ^^^ e.extractLsb' 16 8] ++ post →
          crc16 (g.take f.length) ≠ le16 (byteAt g f.length) (byteAt g (f.length + 1))

/-! ### The request encoder -/

/-- R41: for an admitted function code REQ.BUILD completes in every state, writes no register, and
returns the eight bytes of the layout. -/
def Obligations.RequestFrameLayout : Prop :=
  ∀ (s : State) (slave fc : Byte) (addr qty : U16),
    (fc = 0x01#8 ∨ fc = 0x02#8 ∨ fc = 0x03#8 ∨ fc = 0x04#8) →
      ∃ f : List Byte,
        exec (.reqBuild slave fc addr qty) s = .next { s with results := s.results ++ [.frame f] } ∧
        f.length = 8 ∧ f[0]? = some slave ∧ f[1]? = some fc ∧
        f[2]? = some (addr.extractLsb' 8 8) ∧ f[3]? = some (addr.extractLsb' 0 8) ∧
        f[4]? = some (qty.extractLsb' 8 8) ∧ f[5]? = some (qty.extractLsb' 0 8) ∧
        f[6]? = some ((crc16 (f.take 6)).extractLsb' 0 8) ∧
        f[7]? = some ((crc16 (f.take 6)).extractLsb' 8 8)

/-- R80 (derived there from R76): a built frame has eight bytes and carries the CRC of its first six,
low byte first. -/
def Obligations.BuiltFramesCarryTheirCrc : Prop :=
  ∀ (s t : State) (slave fc : Byte) (addr qty : U16) (f : List Byte),
    exec (.reqBuild slave fc addr qty) s = .next t → t.results = s.results ++ [.frame f] →
      f.length = 8 ∧ le16 (byteAt f 6) (byteAt f 7) = crc16 (f.take 6)

/-- R77: the encoder admits exactly the four function codes; REQ.BUILD is refused for every other one
and for no other reason. -/
def Obligations.OnlyFourFunctionCodes : Prop :=
  ∀ (s : State) (slave fc : Byte) (addr qty : U16),
    ((fc.toNat < 1 ∨ 4 < fc.toNat) →
      exec (.reqBuild slave fc addr qty) s = .refused .unsupportedFunctionCode) ∧
    ((1 ≤ fc.toNat ∧ fc.toNat ≤ 4) → ∃ t, exec (.reqBuild slave fc addr qty) s = .next t)

/-- R78 (its last sentence, derived there from R76): no instruction hands FRAME_TOO_LONG to the host. -/
def Obligations.NeverFrameTooLong : Prop :=
  ∀ (i : Instr) (s t : State) (n : Nat), exec i s = .next t → .frameTooLong n ∈ t.results →
    .frameTooLong n ∈ s.results

/-- The four request frames as the encoder emits them (R43, R81; their reading as instructions is the
model's, log entry 6): each completes in every state, writes no register, returns its bytes on the wire,
and is REQ.BUILD with its function code. -/
def Obligations.WireRequestsAreBuilt : Prop :=
  ∀ (s : State) (slave : Byte) (addr qty : U16),
    (exec (.wireReq01 slave addr qty) s =
        .next { s with results := s.results ++ [.frame (encode (.wireReq01 slave addr qty))] } ∧
      exec (.reqBuild slave 0x01#8 addr qty) s = exec (.wireReq01 slave addr qty) s) ∧
    (exec (.wireReq02 slave addr qty) s =
        .next { s with results := s.results ++ [.frame (encode (.wireReq02 slave addr qty))] } ∧
      exec (.reqBuild slave 0x02#8 addr qty) s = exec (.wireReq02 slave addr qty) s) ∧
    (exec (.wireReq03 slave addr qty) s =
        .next { s with results := s.results ++ [.frame (encode (.wireReq03 slave addr qty))] } ∧
      exec (.reqBuild slave 0x03#8 addr qty) s = exec (.wireReq03 slave addr qty) s) ∧
    (exec (.wireReq04 slave addr qty) s =
        .next { s with results := s.results ++ [.frame (encode (.wireReq04 slave addr qty))] } ∧
      exec (.reqBuild slave 0x04#8 addr qty) s = exec (.wireReq04 slave addr qty) s)

/-! ### The receiver -/

/-- R82: RX.START completes in every state and arms the receiver; nothing of an old frame is left. -/
def Obligations.StartArmsReceiver : Prop :=
  (∀ (s : State) (q : U16), ∃ t, exec (.rxStart q) s = .next t ∧
    t.rxState = .receiving ∧ t.rxQty = q ∧ t.rxExpect.toNat = 5 + 2 * q.toNat ∧ t.rxExc = false ∧
    t.rxBuf = [] ∧ t.crcAcc = s.crcAcc ∧ t.inputs = s.inputs ∧ t.results = s.results ++ [.none]) ∧
  5 + 2 * (0xFFFF#16 : U16).toNat = 131075

/-- R88: RX.ABORT completes in every state and clears the receiver; from IDLE it changes no register. -/
def Obligations.AbortClearsReceiver : Prop :=
  (∀ s : State, exec .rxAbort s =
    .next { s with rxState := .idle, rxQty := 0#16, rxExpect := 0#18, rxExc := false, rxBuf := [],
                   results := s.results ++ [.none] }) ∧
  ∀ s : State, s.Inv → s.rxState = .idle → ∃ t, exec .rxAbort s = .next t ∧ s.SameRegisters t

/-- R89: RX.STATUS completes in every state, writes no register and returns the record; in IDLE the
record is all zero. -/
def Obligations.StatusReportsReceiver : Prop :=
  (∀ s : State, exec .rxStatus s =
    .next { s with results := s.results ++
      [.status s.rxState s.rxExc s.rxBuf.length s.rxExpect s.rxQty] }) ∧
  ∀ s : State, s.Inv → s.rxState = .idle → ∃ t, exec .rxStatus s = .next t ∧
    t.results = s.results ++ [.status .idle false 0 0#18 0#16]

/-- R86: a byte that arrives in IDLE or COMPLETE changes no register and is discarded with `taken = 0`.
-/
def Obligations.BytesOutsideFrameDiscarded : Prop :=
  ∀ (s : State) (b : Byte), s.rxState ≠ .receiving →
    exec (.rxByte b) s = .next { s with results := s.results ++ [.taken false] }

/-- R83: a byte that arrives outside RECEIVING is not taken. Inside, it is appended; the latch fires when
byte 1 has bit 7 set and it was clear, and makes the expected length 5; the frame is complete when the
expected length is reached. In a state that meets R21 the latch fires only on the byte that brings the
length to 2, and never completes the frame on that byte. -/
def Obligations.ReceivedByte : Prop :=
  (∀ (s : State) (b : Byte), s.rxState ≠ .receiving →
    exec (.rxByte b) s = .next { s with results := s.results ++ [.taken false] }) ∧
  (∀ (s : State) (b : Byte), s.rxState = .receiving →
    ∃ t, exec (.rxByte b) s = .next t ∧ t.rxBuf = s.rxBuf ++ [b] ∧
      ((s.rxExc = false ∧ 2 ≤ t.rxBuf.length ∧ (byteAt t.rxBuf 1).getLsbD 7 = true) →
        t.rxExc = true ∧ t.rxExpect.toNat = 5) ∧
      (¬ (s.rxExc = false ∧ 2 ≤ t.rxBuf.length ∧ (byteAt t.rxBuf 1).getLsbD 7 = true) →
        t.rxExc = s.rxExc ∧ t.rxExpect = s.rxExpect) ∧
      (t.rxBuf.length = t.rxExpect.toNat → t.rxState = .complete) ∧
      (t.rxBuf.length ≠ t.rxExpect.toNat → t.rxState = .receiving) ∧
      t.crcAcc = s.crcAcc ∧ t.rxQty = s.rxQty ∧ t.inputs = s.inputs ∧
      t.results = s.results ++ [.taken true]) ∧
  ∀ (s t : State) (b : Byte), s.Inv → exec (.rxByte b) s = .next t → s.rxExc = false →
    t.rxExc = true →
      t.rxBuf.length = 2 ∧ b.getLsbD 7 = true ∧ t.rxExpect.toNat = 5 ∧ t.rxState = .receiving

/-- R87: a chunk is its bytes one after the other; some first part of it, no longer than what the frame
still lacks, is absorbed, and the rest is discarded. -/
def Obligations.ChunksAbsorbedUpToFrameEnd : Prop :=
  ∀ (s : State) (bs : List Byte), s.Inv →
    exec (.rxChunk bs) s = execAll (bs.map .rxByte) s ∧
    ∃ t k, exec (.rxChunk bs) s = .next t ∧ k ≤ bs.length ∧ t.rxBuf = s.rxBuf ++ bs.take k ∧
      t.results = s.results ++ List.replicate k (.taken true) ++
        List.replicate (bs.length - k) (.taken false) ∧
      (s.rxState = .receiving → k ≤ s.rxExpect.toNat - s.rxBuf.length) ∧
      (s.rxState ≠ .receiving → k = 0) ∧
      t.crcAcc = s.crcAcc ∧ t.rxQty = s.rxQty ∧ t.inputs = s.inputs

/-- R98 (derived there from R82 to R86 and R91): after RX.START `q` the frame ends at 5 bytes when its
byte 1 has bit 7 set and at `5 + 2 × q` otherwise; no later byte changes that, and RX.VALIDATE then
takes the path that bit names. -/
def Obligations.LengthDecidedOnce : Prop :=
  ∀ (s : State) (q : U16) (f : List Byte), 2 ≤ f.length →
    ∃ t, execAll [.rxStart q, .rxChunk f] s = .next t ∧
      t.rxExc = (byteAt f 1).getLsbD 7 ∧
      t.rxExpect.toNat = (if (byteAt f 1).getLsbD 7 then 5 else 5 + 2 * q.toNat) ∧
      t.rxBuf = f.take t.rxExpect.toNat ∧
      (f.length < t.rxExpect.toNat → t.rxState = .receiving) ∧
      (t.rxExpect.toNat ≤ f.length → t.rxState = .complete ∧
        ∃ u r, exec .rxValidate t = .next u ∧ u.results = t.results ++ [r] ∧
          ((byteAt f 1).getLsbD 7 = true → ∀ p, r ≠ .payload p) ∧
          ((byteAt f 1).getLsbD 7 = false → ∀ c l, r ≠ .modbusException c l))

/-- R100, R137 (derived there from R82 and R85): after RX.START `q` with `q ≥ 1`, the `5 + ceil(q/8)`
bytes with which a standard slave answers a coil read leave the receiver RECEIVING. -/
def Obligations.StandardCoilResponseNeverCompletes : Prop :=
  ∀ (s : State) (q : U16) (f : List Byte), 1 ≤ q.toNat → f.length = 5 + (q.toNat + 7) / 8 →
    (byteAt f 1).getLsbD 7 = false →
      ∃ t, execAll [.rxStart q, .rxChunk f] s = .next t ∧ t.rxState = .receiving ∧ t.rxBuf = f

/-! ### Judging a frame -/

/-- R90: RX.VALIDATE is refused unless the receiver is COMPLETE, and in a COMPLETE state that meets R21
it completes. -/
def Obligations.ValidateOnlyWhenComplete : Prop :=
  (∀ s : State, s.rxState ≠ .complete → exec .rxValidate s = .refused .validateBeforeComplete) ∧
  ∀ s : State, s.Inv → s.rxState = .complete → ∃ t, exec .rxValidate s = .next t

/-- R91: the CRC is compared first on both paths; then an exception frame reports its code and label,
and a normal one its payload. No register is written. -/
def Obligations.ValidateJudgesFrame : Prop :=
  (∀ s : State, s.Inv → s.rxState = .complete →
    ∀ (n : Nat) (computed received : U16), n = s.rxBuf.length → computed = crc16 (s.rxBuf.take (n - 2)) →
      received = le16 (byteAt s.rxBuf (n - 2)) (byteAt s.rxBuf (n - 1)) →
        n = s.rxExpect.toNat ∧ 5 ≤ n ∧
        (computed ≠ received → exec .rxValidate s =
          .next { s with results := s.results ++ [.crcMismatch computed received] }) ∧
        (computed = received → s.rxExc = true → exec .rxValidate s =
          .next { s with results := s.results ++
            [.modbusException (byteAt s.rxBuf 2) (excLabel (byteAt s.rxBuf 2))] }) ∧
        (computed = received → s.rxExc = false → exec .rxValidate s =
          .next { s with results := s.results ++ [.payload (s.rxBuf.take (n - 2))] })) ∧
  (∀ s : State, s.rxState ≠ .complete → exec .rxValidate s = .refused .validateBeforeComplete) ∧
  ∀ s : State, ∃ t, execAll [.rxStart 2#16, .rxChunk [0x01#8, 0x03#8, 0x04#8, 0x00#8, 0x11#8, 0x00#8,
      0x22#8, 0x2A#8, 0x2F#8], .rxValidate] s = .next t ∧
    t.results.getLast? =
      some (.payload [0x01#8, 0x03#8, 0x04#8, 0x00#8, 0x11#8, 0x00#8, 0x22#8])

/-- R97: RX.VALIDATE keeps the frame, so a second one returns the same result. -/
def Obligations.ValidateIsRepeatable : Prop :=
  ∀ s t : State, exec .rxValidate s = .next t →
    t.rxState = .complete ∧ t.rxBuf = s.rxBuf ∧ s.SameRegisters t ∧
      ∃ r u, t.results = s.results ++ [r] ∧ exec .rxValidate t = .next u ∧
        u.results = t.results ++ [r]

/-- R104 (its last sentence, derived there from R94): the payload RX.VALIDATE returns holds `3 + 2 ×
RX_QTY` bytes, so both decoders complete on it for the same quantity, in every state. -/
def Obligations.ValidatedPayloadsDecode : Prop :=
  ∀ (s t u : State) (p : List Byte), s.Inv → exec .rxValidate s = .next t →
    t.results = s.results ++ [.payload p] →
      p.length = 3 + 2 * s.rxQty.toNat ∧
      (∃ v, exec (.decRegs s.rxQty p) u = .next v) ∧ ∃ v, exec (.decCoils s.rxQty p) u = .next v

/-- R99 (derived there; its normal frames): a normal frame accepted after RX.START `q`, with one bit
flipped, is never accepted: it is delivered, judged, and the verdict is not OK. -/
def Obligations.SingleBitMutationsRejected : Prop :=
  ∀ (s : State) (q : U16) (f : List Byte) (j k : Nat),
    f.length = 5 + 2 * q.toNat → (byteAt f 1).getLsbD 7 = false →
    crc16 (f.take (f.length - 2)) = le16 (byteAt f (f.length - 2)) (byteAt f (f.length - 1)) →
    j < f.length → k < 8 →
      ∃ t r, execAll [.rxStart q, .rxChunk (f.set j (byteAt f j ^^^ (1#8 <<< k))), .rxValidate] s =
          .next t ∧ t.results.getLast? = some r ∧ ∀ p, r ≠ .payload p

/-- R96: the label table, total over the codes: nine codes with a label of their own, whose id is the
code, and one label with id 0 for every other code; code 2's text is the source's. -/
def Obligations.ExceptionLabels : Prop :=
  (excLabel 1#8 = .illegalFunction ∧ excLabel 2#8 = .illegalDataAddress ∧
    excLabel 3#8 = .illegalDataValue ∧ excLabel 4#8 = .slaveDeviceFailure ∧
    excLabel 5#8 = .acknowledge ∧ excLabel 6#8 = .slaveDeviceBusy ∧
    excLabel 8#8 = .memoryParityError ∧ excLabel 10#8 = .gatewayPathUnavailable ∧
    excLabel 11#8 = .gatewayTargetFailed) ∧
  (∀ code : Byte,
    (code.toNat ∈ [1, 2, 3, 4, 5, 6, 8, 10, 11] → labelId (excLabel code) = code) ∧
    (code.toNat ∉ [1, 2, 3, 4, 5, 6, 8, 10, 11] →
      labelId (excLabel code) = 0#8 ∧ excLabel code = .unknown)) ∧
  labelText (excLabel 2#8) = "Illegal Data Address"

/-- The response frames as instructions (log entry 6): a frame is received byte by byte and judged if
the receiver is then COMPLETE; in every state that meets R21 this completes. -/
def Obligations.WireResponsesAreReceived : Prop :=
  ∀ (s : State) (slave : Byte) (fc : BitVec 7) (count : Byte) (data : List Byte) (crc : U16),
    s.Inv → ∀ i : Instr,
      (i = .wireRspNormal slave fc count data crc ∨ i = .wireRspException slave fc count crc) →
        ∃ t u, execAll ((encode i).map .rxByte) s = .next t ∧ exec i s = .next u ∧
          (t.rxState = .complete → exec .rxValidate t = .next u) ∧ (t.rxState ≠ .complete → u = t)

/-- R93, R94 on the frames of R44 and R45, through the model's choice that one response form is both
received and judged, without an RX.VALIDATE (log entry 6): after RX.START `q`, the frame of the matching
length completes and is judged by its trailer, CRC first. -/
def Obligations.WireResponsesJudged : Prop :=
  ∀ (s t : State) (q : U16), exec (.rxStart q) s = .next t →
    (∀ (slave : Byte) (fc : BitVec 7) (count : Byte) (data : List Byte) (crc : U16) (body : List Byte),
      data.length = 2 * q.toNat → body = [slave, fc.setWidth 8, count] ++ data →
        ∃ u, exec (.wireRspNormal slave fc count data crc) t = .next u ∧ u.rxState = .complete ∧
          u.rxExc = false ∧ u.crcAcc = s.crcAcc ∧
          u.results = t.results ++ List.replicate (5 + 2 * q.toNat) (.taken true) ++
            [if crc16 body = crc then .payload body else .crcMismatch (crc16 body) crc]) ∧
    ∀ (slave : Byte) (fc : BitVec 7) (code : Byte) (crc : U16) (body : List Byte),
      body = [slave, fc.setWidth 8 ||| 0x80#8, code] →
        ∃ u, exec (.wireRspException slave fc code crc) t = .next u ∧ u.rxState = .complete ∧
          u.rxExc = true ∧ u.crcAcc = s.crcAcc ∧
          u.results = t.results ++ List.replicate 5 (.taken true) ++
            [if crc16 body = crc then .modbusException code (excLabel code)
              else .crcMismatch (crc16 body) crc]

/-! ### The value decoder -/

/-- R102: DEC.REGS returns value `i` from payload bytes `3 + 2i` and `4 + 2i`, high byte first, and
writes no register; it faults exactly when the payload is too short. -/
def Obligations.RegistersDecoded : Prop :=
  ∀ (s : State) (q : U16) (p : List Byte),
    (p.length < 3 + 2 * q.toNat → exec (.decRegs q p) s = .fault .payloadTooShort) ∧
    (3 + 2 * q.toNat ≤ p.length →
      ∃ vs : List U16,
        exec (.decRegs q p) s = .next { s with results := s.results ++ [.regs vs] } ∧
        vs.length = q.toNat ∧
        ∀ i, i < q.toNat → ∃ v h l, vs[i]? = some v ∧ p[3 + 2 * i]? = some h ∧
          p[4 + 2 * i]? = some l ∧ v.toNat = h.toNat * 256 + l.toNat)

/-- R103: DEC.COILS returns bit `i` from bit `i mod 8` of payload byte `3 + floor(i/8)`, least
significant bit first, and writes no register; it faults exactly when the payload is too short. -/
def Obligations.CoilsDecoded : Prop :=
  ∀ (s : State) (q : U16) (p : List Byte),
    (p.length * 8 < 24 + q.toNat → exec (.decCoils q p) s = .fault .payloadTooShort) ∧
    (24 + q.toNat ≤ p.length * 8 →
      ∃ vs : List Bool,
        exec (.decCoils q p) s = .next { s with results := s.results ++ [.coils vs] } ∧
        vs.length = q.toNat ∧
        ∀ i, i < q.toNat → ∃ v b, vs[i]? = some v ∧ p[3 + i / 8]? = some b ∧
          (v = true ↔ b.toNat / 2 ^ (i % 8) % 2 = 1))

/-- A whole register read (R30, R106, the source's round trip): any values, sent big-endian in a frame
with its trailer, come back in order from build, start, chunk, validate and decode. -/
def Obligations.RegisterReadRoundTrip : Prop :=
  ∀ (s : State) (slave fc count : Byte) (addr q : U16) (vs : List U16) (body : List Byte),
    (fc = 0x03#8 ∨ fc = 0x04#8) → vs.length = q.toNat →
    body = [slave, fc, count] ++ vs.flatMap (fun v => [v.extractLsb' 8 8, v.extractLsb' 0 8]) →
      ∃ t u, execAll (exchange slave fc addr q (withTrailer body)) s = .next t ∧
        t.results.getLast? = some (.payload body) ∧
        exec (.decRegs q body) t = .next u ∧ u.results.getLast? = some (.regs vs)

/-- A whole coil read with the block's length (R31, R100): the bits come back in order from the first
`ceil(q/8)` of the `2 × q` data bytes. -/
def Obligations.CoilReadRoundTrip : Prop :=
  ∀ (s : State) (slave fc count : Byte) (addr q : U16) (data body : List Byte),
    (fc = 0x01#8 ∨ fc = 0x02#8) → data.length = 2 * q.toNat → body = [slave, fc, count] ++ data →
      ∃ t u vs, execAll (exchange slave fc addr q (withTrailer body)) s = .next t ∧
        t.results.getLast? = some (.payload body) ∧
        exec (.decCoils q body) t = .next u ∧ u.results.getLast? = some (.coils vs) ∧
        vs.length = q.toNat ∧
        ∀ i, i < q.toNat → ∃ v b, vs[i]? = some v ∧ data[i / 8]? = some b ∧ v = b.getLsbD (i % 8)

/-! ### What no command changes -/

/-- R21 (derived there from R16 to R20): every step keeps the receiver invariants. -/
def Obligations.StepKeepsReceiverInvariants : Prop :=
  ∀ s t : State, s.Inv → step s = .next t → t.Inv

/-- The state after reset meets the receiver invariants. -/
def Obligations.ResetMeetsReceiverInvariants : Prop := State.Inv State.reset

/-- R18 (its legal values, derived there): in every reachable state `RX_EXPECT` is 0 exactly in IDLE
and otherwise 5 to 131075, and the buffer never holds more than `RX_CAP` bytes. -/
def Obligations.ExpectedLengthLegal : Prop :=
  ∀ s : State, Reachable s →
    (s.rxState = .idle ↔ s.rxExpect = 0#18) ∧
    (s.rxState ≠ .idle → 5 ≤ s.rxExpect.toNat ∧ s.rxExpect.toNat ≤ 131075) ∧
    s.rxBuf.length ≤ s.rxExpect.toNat ∧ s.rxBuf.length ≤ Config.rxCap

/-- R16: `RX_STATE` changes only as the rule says: RX.START to RECEIVING, RX.ABORT to IDLE, and from
RECEIVING to COMPLETE when received bytes make the buffer as long as expected. -/
def Obligations.ReceiverTransitions : Prop :=
  ∀ (i : Instr) (s t : State), exec i s = .next t →
    (∃ q, i = .rxStart q ∧ t.rxState = .receiving) ∨ (i = .rxAbort ∧ t.rxState = .idle) ∨
    ((∀ q, i ≠ .rxStart q) ∧ i ≠ .rxAbort ∧
      (t.rxState = s.rxState ∨
        (s.rxState = .receiving ∧ t.rxState = .complete ∧ t.rxBuf.length = t.rxExpect.toNat ∧
          ((∃ b, i = .rxByte b) ∨ (∃ bs, i = .rxChunk bs) ∨
            (∃ a b c d e, i = .wireRspNormal a b c d e) ∨ ∃ a b c d, i = .wireRspException a b c d))))

/-- R19, R20: any command but RX.START and RX.ABORT keeps the bytes already received, in their places,
and never clears the latch; R17: and keeps `RX_QTY`. -/
def Obligations.ReceivedBytesKept : Prop :=
  ∀ (i : Instr) (s t : State), exec i s = .next t → (∀ q, i ≠ .rxStart q) → i ≠ .rxAbort →
    s.rxBuf <+: t.rxBuf ∧ (s.rxExc = true → t.rxExc = true) ∧ t.rxQty = s.rxQty

/-- R15: only CRC.INIT and CRC.FEED, and CRC.SEQ which is made of them, write `CRC_ACC`; CRC.SEQ and the
other CRC commands leave the receiver alone. -/
def Obligations.OnlyCrcCommandsWriteAccumulator : Prop :=
  ∀ (i : Instr) (s t : State), exec i s = .next t →
    (i ≠ .crcInit → (∀ b, i ≠ .crcFeed b) → (∀ bs, i ≠ .crcSeq bs) → t.crcAcc = s.crcAcc) ∧
    ((i = .crcInit ∨ (∃ b, i = .crcFeed b) ∨ (∃ bs, i = .crcSeq bs)) → s.SameReceiver t)

/-- R35: CRC.READ, CRC.CALC, REQ.BUILD, RX.STATUS, RX.VALIDATE, DEC.REGS and DEC.COILS write no register
and may be repeated with the same result. -/
def Obligations.SideEffectFreeCommands : Prop :=
  ∀ (i : Instr) (s t : State), exec i s = .next t →
    (i = .crcRead ∨ (∃ bs, i = .crcCalc bs) ∨ (∃ a b c d, i = .reqBuild a b c d) ∨ i = .rxStatus ∨
      i = .rxValidate ∨ (∃ q p, i = .decRegs q p) ∨ ∃ q p, i = .decCoils q p) →
      s.SameRegisters t ∧
        ∃ r u, t.results = s.results ++ [r] ∧ exec i t = .next u ∧ u.results = t.results ++ [r] ∧
          s.SameRegisters u

/-- R11 and the model's host side (log entries 1 and 4): no instruction touches the pending inputs or a
result already handed out, and a command hands out exactly one. -/
def Obligations.OneResultPerCommand : Prop :=
  ∀ (i : Instr) (s t : State), exec i s = .next t →
    t.inputs = s.inputs ∧ s.results <+: t.results ∧
      (i.isCommand = true → t.results.length = s.results.length + 1)

/-- R114, R115, R116: in a state that meets R21 an instruction stops only for the listed reasons. -/
def Obligations.OnlyListedStops : Prop :=
  ∀ (i : Instr) (s : State), s.Inv →
    (∀ r, exec i s = .fault r → r = .payloadTooShort ∧
      ((∃ q p, i = .decRegs q p ∧ p.length < 3 + 2 * q.toNat) ∨
        ∃ q p, i = .decCoils q p ∧ p.length < 3 + (q.toNat + 7) / 8)) ∧
    ∀ r, exec i s = .refused r →
      (r = .unsupportedFunctionCode ∧
        ∃ a fc b c, i = .reqBuild a fc b c ∧ (fc.toNat < 1 ∨ 4 < fc.toNat)) ∨
      (r = .validateBeforeComplete ∧ i = .rxValidate ∧ s.rxState ≠ .complete)

/-- R133, R134 (derived there), R82: RX.START forgets the exchange before it: from two states with the
same `CRC_ACC`, RX.START and any commands after it end the same way, with the same registers and the
same new results. -/
def Obligations.StartForgetsEarlierExchange : Prop :=
  ∀ (q : U16) (is : List Instr) (s s' : State), s.crcAcc = s'.crcAcc →
    (∀ t, execAll (.rxStart q :: is) s = .next t →
      ∃ t' rs, execAll (.rxStart q :: is) s' = .next t' ∧ t.SameRegisters t' ∧
        t.results = s.results ++ rs ∧ t'.results = s'.results ++ rs) ∧
    (∀ r, execAll (.rxStart q :: is) s = .fault r → execAll (.rxStart q :: is) s' = .fault r) ∧
    ∀ r, execAll (.rxStart q :: is) s = .refused r → execAll (.rxStart q :: is) s' = .refused r

/-- R72, R138 (derived there): the codec's commands neither read nor disturb a CRC being accumulated:
whatever `CRC_ACC` holds, commands other than CRC.READ, CRC.INIT, CRC.FEED and CRC.SEQ give the same
results and the same receiver, and leave `CRC_ACC`. -/
def Obligations.CodecIgnoresAccumulator : Prop :=
  ∀ (is : List Instr) (s : State) (v : U16),
    (∀ i ∈ is, i ≠ .crcRead ∧ i ≠ .crcInit ∧ (∀ b, i ≠ .crcFeed b) ∧ ∀ bs, i ≠ .crcSeq bs) →
      ∀ t, execAll is s = .next t →
        t.crcAcc = s.crcAcc ∧ execAll is { s with crcAcc := v } = .next { t with crcAcc := v }

/-- R56: the byte layout of every result; a result with a status starts with its code (R110). -/
def Obligations.ResultLayouts : Prop :=
  (∀ r c, statusCode r = some c → ∃ bs, resultBytes r = c :: bs) ∧
  resultBytes .none = [] ∧
  (∀ v : U16, ∃ h l, resultBytes (.crc v) = [h, l] ∧ v.toNat = h.toNat * 256 + l.toNat) ∧
  (∀ t, resultBytes (.taken t) = [if t then 0x01#8 else 0x00#8]) ∧
  (∀ f, resultBytes (.frame f) = 0x00#8 :: f) ∧
  (∀ n, resultBytes (.frameTooLong n) = [0x01#8]) ∧
  (∀ (st : RxState) (exc : Bool) (len : Nat) (expect : BitVec 18) (qty : U16), len ≤ 131075 →
    ∃ b2 b3 b4 b5 b6 b7 b8 b9 b10 b11, resultBytes (.status st exc len expect qty) =
        [match st with | .idle => 0#8 | .receiving => 1#8 | .complete => 2#8,
          if exc then 0x01#8 else 0x00#8, b2, b3, b4, b5, b6, b7, b8, b9, b10, b11] ∧
      len = b2.toNat * 2 ^ 24 + b3.toNat * 2 ^ 16 + b4.toNat * 2 ^ 8 + b5.toNat ∧
      expect.toNat = b6.toNat * 2 ^ 24 + b7.toNat * 2 ^ 16 + b8.toNat * 2 ^ 8 + b9.toNat ∧
      qty.toNat = b10.toNat * 256 + b11.toNat) ∧
  (∀ p : List Byte, p.length < 2 ^ 32 → ∃ m3 m2 m1 m0,
    resultBytes (.payload p) = 0x00#8 :: m3 :: m2 :: m1 :: m0 :: p ∧
      p.length = m3.toNat * 2 ^ 24 + m2.toNat * 2 ^ 16 + m1.toNat * 2 ^ 8 + m0.toNat) ∧
  (∀ a b : U16, ∃ aH aL bH bL, resultBytes (.crcMismatch a b) = [0x02#8, aH, aL, bH, bL] ∧
    a.toNat = aH.toNat * 256 + aL.toNat ∧ b.toNat = bH.toNat * 256 + bL.toNat) ∧
  (∀ code l, resultBytes (.modbusException code l) = [0x03#8, code, labelId l]) ∧
  (∀ vs : List U16, (resultBytes (.regs vs)).length = 2 * vs.length ∧
    ∀ i v, vs[i]? = some v → ∃ h l, (resultBytes (.regs vs))[2 * i]? = some h ∧
      (resultBytes (.regs vs))[2 * i + 1]? = some l ∧ v.toNat = h.toNat * 256 + l.toNat) ∧
  ∀ vs : List Bool, (resultBytes (.coils vs)).length = vs.length ∧
    ∀ (i : Nat) (v : Bool), vs[i]? = some v →
      (resultBytes (.coils vs))[i]? = some (if v then 0x01#8 else 0x00#8)

/-- The example lines of R62 are read as the instructions they stand for, a line of comment as none, and
a program in the order of its lines. -/
def Obligations.AssemblyExamplesRead : Prop :=
  assembleLine "REQ.BUILD 0x01, 0x03, 0x0000, 0x0002".toList =
      some [.reqBuild 0x01#8 0x03#8 0x0000#16 0x0002#16] ∧
    assembleLine "RX.START 2".toList = some [.rxStart 2#16] ∧
    assembleLine "RX.BYTE 0x83".toList = some [.rxByte 0x83#8] ∧
    assembleLine ("CRC.CALC ".toList ++ [leftBrace] ++ "31 32 33".toList ++ [rightBrace]) =
      some [.crcCalc [0x31#8, 0x32#8, 0x33#8]] ∧
    assembleLine ("DEC.COILS 9, ".toList ++ [leftBrace] ++ "01 01 04 CD 01 00 00".toList ++
        [rightBrace]) =
      some [.decCoils 9#16 [0x01#8, 0x01#8, 0x04#8, 0xCD#8, 0x01#8, 0x00#8, 0x00#8]] ∧
    assembleLine "; -> 0x0BC4".toList = some [] ∧
    ∀ (l : List Char) (ls : List (List Char)) (is js : List Instr),
      assembleLine l = some is → assemble ls = some js → assemble (l :: ls) = some (is ++ js)
end

