-- ==== Sys2Proof/Laws/Crc.lean ====
section
/-! SUPPORT. The laws of the byte helpers and of the CRC functions (spec/40_crc.md R66 to R68): the CRC
is linear over XOR, a round is injective, and a correct trailer leaves zero. -/

namespace Sys2Proof.Machine

/-! ### Bytes of a 16-bit value -/

theorem be16_toNat (h l : Byte) : (be16 h l).toNat = h.toNat * 256 + l.toNat := by
  have hl := l.isLt
  have hh := h.isLt
  simp only [be16, zext16, BitVec.toNat_or, BitVec.toNat_shiftLeft, BitVec.toNat_setWidth,
    Nat.shiftLeft_eq]
  rw [Nat.mod_eq_of_lt (by omega), Nat.mod_eq_of_lt (by omega), Nat.mod_eq_of_lt (by omega),
    Nat.mul_comm, ← Nat.two_pow_add_eq_or_of_lt (by omega)]

theorem le16_eq_be16 (l h : Byte) : le16 l h = be16 h l := rfl

theorem hi_toNat (v : U16) : (hi v).toNat = v.toNat / 256 := by
  have := v.isLt
  simp only [hi, BitVec.extractLsb'_toNat, Nat.shiftRight_eq_div_pow]
  omega

theorem lo_toNat (v : U16) : (lo v).toNat = v.toNat % 256 := by
  simp [lo, BitVec.extractLsb'_toNat]

@[simp] theorem be16_hi_lo (v : U16) : be16 (hi v) (lo v) = v := by
  apply BitVec.eq_of_toNat_eq
  rw [be16_toNat, hi_toNat, lo_toNat]
  omega

@[simp] theorem le16_lo_hi (v : U16) : le16 (lo v) (hi v) = v := be16_hi_lo v

@[simp] theorem hi_be16 (h l : Byte) : hi (be16 h l) = h := by
  apply BitVec.eq_of_toNat_eq
  have := l.isLt
  rw [hi_toNat, be16_toNat]
  omega

@[simp] theorem lo_be16 (h l : Byte) : lo (be16 h l) = l := by
  apply BitVec.eq_of_toNat_eq
  have := l.isLt
  rw [lo_toNat, be16_toNat]
  omega

@[simp] theorem hi_le16 (l h : Byte) : hi (le16 l h) = h := hi_be16 h l
@[simp] theorem lo_le16 (l h : Byte) : lo (le16 l h) = l := lo_be16 h l

/-! ### Rounds -/

/-- Bit `k` of a round: bit `k + 1` of the accumulator, with the polynomial's bit when bit 0 was set. -/
theorem crcRound_getLsbD (acc : U16) (k : Nat) :
    (crcRound acc).getLsbD k = ((acc.getLsbD (k + 1)) ^^ (acc.getLsbD 0 && Config.crcPoly.getLsbD k)) := by
  unfold crcRound
  cases h : acc.getLsbD 0 <;> simp [BitVec.getLsbD_ushiftRight, Nat.add_comm]

@[simp] theorem crcRound_zero : crcRound 0#16 = 0#16 := by decide

theorem crcRound_xor (a b : U16) : crcRound (a ^^^ b) = crcRound a ^^^ crcRound b := by
  apply BitVec.eq_of_getLsbD_eq
  intro k _
  simp only [BitVec.getLsbD_xor, crcRound_getLsbD]
  cases a.getLsbD (k + 1) <;> cases b.getLsbD (k + 1) <;> cases a.getLsbD 0 <;> cases b.getLsbD 0 <;>
    simp

/-- Only zero goes to zero: the polynomial's top bit marks the rounds that used it. -/
theorem crcRound_eq_zero {acc : U16} (h : crcRound acc = 0#16) : acc = 0#16 := by
  have h0 : acc.getLsbD 0 = false := by
    have := crcRound_getLsbD acc 15
    rw [h] at this
    simpa [BitVec.getLsbD_of_ge, Config.crcPoly] using this
  apply BitVec.eq_of_getLsbD_eq
  intro k hk
  cases k with
  | zero => simpa using h0
  | succ k =>
    have := crcRound_getLsbD acc k
    rw [h, h0] at this
    simpa using this.symm

@[simp] theorem crcRounds_zero (n : Nat) : crcRounds n 0#16 = 0#16 := by
  induction n with
  | zero => rfl
  | succ n ih => simp [crcRounds, ih]

theorem crcRounds_add (m n : Nat) (acc : U16) :
    crcRounds (m + n) acc = crcRounds n (crcRounds m acc) := by
  induction m generalizing acc with
  | zero => simp [crcRounds]
  | succ m ih => rw [Nat.succ_add]; exact ih _

theorem crcRounds_xor (n : Nat) (a b : U16) :
    crcRounds n (a ^^^ b) = crcRounds n a ^^^ crcRounds n b := by
  induction n generalizing a b with
  | zero => rfl
  | succ n ih => simp only [crcRounds, crcRound_xor, ih]

theorem crcRounds_eq_zero {n : Nat} {acc : U16} (h : crcRounds n acc = 0#16) : acc = 0#16 := by
  induction n generalizing acc with
  | zero => exact h
  | succ n ih => exact crcRound_eq_zero (ih h)

/-- While the low `n` bits are clear, `n` rounds are a shift. -/
theorem crcRounds_of_low_clear (n : Nat) (acc : U16) (h : ∀ k, k < n → acc.getLsbD k = false) :
    crcRounds n acc = acc >>> n := by
  induction n generalizing acc with
  | zero => simp [crcRounds]
  | succ n ih =>
    have h0 : acc.getLsbD 0 = false := h 0 (by omega)
    have hr : crcRound acc = acc >>> 1 := if_neg (by rw [h0]; decide)
    rw [crcRounds, hr, ih, Nat.add_comm, BitVec.shiftRight_add]
    intro k hk
    simpa [BitVec.getLsbD_ushiftRight, Nat.add_comm] using h (k + 1) (by omega)

/-! ### Bytes and sequences -/

@[simp] theorem zext16_zero : zext16 0#8 = 0#16 := rfl

theorem zext16_xor (a b : Byte) : zext16 (a ^^^ b) = zext16 a ^^^ zext16 b := by
  simp [zext16]

theorem zext16_injective {a b : Byte} (h : zext16 a = zext16 b) : a = b := by
  apply BitVec.eq_of_toNat_eq
  have := congrArg BitVec.toNat h
  simpa [zext16, Nat.mod_eq_of_lt (show a.toNat < 65536 by omega),
    Nat.mod_eq_of_lt (show b.toNat < 65536 by omega)] using this

theorem xor_eq_zero_iff_eq (a b : U16) : a ^^^ b = 0#16 ↔ a = b := by
  constructor
  · intro h
    have : a ^^^ b ^^^ b = 0#16 ^^^ b := by rw [h]
    simpa [BitVec.xor_assoc] using this
  · rintro rfl; simp

theorem crcStep_xor (a c : U16) (b d : Byte) :
    crcStep (a ^^^ c) (b ^^^ d) = crcStep a b ^^^ crcStep c d := by
  unfold crcStep
  rw [← crcRounds_xor]
  congr 1
  rw [zext16_xor]
  ac_rfl

theorem crcStep_eq_iff (a c : U16) (b d : Byte) :
    crcStep a b = crcStep c d ↔ a ^^^ zext16 b = c ^^^ zext16 d := by
  unfold crcStep
  constructor
  · intro h
    rw [← xor_eq_zero_iff_eq] at h ⊢
    rw [← crcRounds_xor] at h
    exact crcRounds_eq_zero h
  · intro h; rw [h]

@[simp] theorem crcFrom_nil (acc : U16) : crcFrom acc [] = acc := rfl
@[simp] theorem crcFrom_cons (acc : U16) (b : Byte) (s : List Byte) :
    crcFrom acc (b :: s) = crcFrom (crcStep acc b) s := rfl

theorem crcFrom_append (acc : U16) (s t : List Byte) :
    crcFrom acc (s ++ t) = crcFrom (crcFrom acc s) t := by
  induction s generalizing acc with
  | nil => rfl
  | cons b s ih => exact ih _

theorem crc16_append (s t : List Byte) : crc16 (s ++ t) = crcFrom (crc16 s) t :=
  crcFrom_append _ s t

/-- Equal later bytes keep different accumulators different. -/
theorem crcFrom_injective {a c : U16} (s : List Byte) : crcFrom a s = crcFrom c s ↔ a = c := by
  induction s generalizing a c with
  | nil => rfl
  | cons b s ih =>
    rw [crcFrom_cons, crcFrom_cons, ih, crcStep_eq_iff]
    constructor
    · intro h
      have := congrArg (· ^^^ zext16 b) h
      simpa [BitVec.xor_assoc] using this
    · rintro rfl; rfl

/-- The CRC is linear: XORing two sequences of one length XORs their CRCs. -/
theorem crcFrom_xor (a c : U16) (s t : List Byte) (h : s.length = t.length) :
    crcFrom (a ^^^ c) (List.zipWith (· ^^^ ·) s t) = crcFrom a s ^^^ crcFrom c t := by
  induction s generalizing a c t with
  | nil => cases t with
    | nil => rfl
    | cons _ _ => simp at h
  | cons b s ih => cases t with
    | nil => simp at h
    | cons d t =>
      simp only [List.zipWith_cons_cons, crcFrom_cons, crcStep_xor]
      exact ih _ _ _ (by simpa using h)

/-- Two steps from any accumulator, seen as sixteen rounds of it XORed with the two bytes. -/
theorem crcFrom_pair (acc : U16) (l h : Byte) :
    crcFrom acc [l, h] = crcRounds 16 (acc ^^^ le16 l h) := by
  have hsplit : acc ^^^ le16 l h = (acc ^^^ zext16 l) ^^^ (zext16 h <<< 8) := by
    have : le16 l h = zext16 l ^^^ (zext16 h <<< 8) := by
      apply BitVec.eq_of_getLsbD_eq
      intro k hk
      simp only [le16, zext16, BitVec.getLsbD_or, BitVec.getLsbD_xor, BitVec.getLsbD_shiftLeft,
        BitVec.getLsbD_setWidth]
      by_cases h8 : k < 8
      · simp [h8]
      · simp [h8, BitVec.getLsbD_of_ge l k (by omega)]
    rw [this]; ac_rfl
  have hshift : crcRounds 8 (zext16 h <<< 8) = zext16 h := by
    rw [crcRounds_of_low_clear]
    · apply BitVec.eq_of_getLsbD_eq
      intro k hk
      simp only [zext16, BitVec.getLsbD_ushiftRight, BitVec.getLsbD_shiftLeft,
        BitVec.getLsbD_setWidth]
      by_cases h8 : k < 8
      · simp [show 8 + k < 16 by omega, h8, hk]
      · simp [BitVec.getLsbD_of_ge h k (by omega)]
    · intro k hk
      simp [BitVec.getLsbD_shiftLeft, hk]
  rw [hsplit, crcRounds_add 8 8, crcRounds_xor 8, hshift]
  rfl

end Sys2Proof.Machine
end

