-- ==== Sys2Proof/Laws/State.lean ====
section
/-! SUPPORT. What each register write leaves in each field, by `rfl`. -/

namespace Sys2Proof.Machine

variable (s : State) (r : Result) (v q : U16) (b : Byte)

@[simp] theorem emit_crcAcc : (emit r s).crcAcc = s.crcAcc := rfl
@[simp] theorem emit_rxState : (emit r s).rxState = s.rxState := rfl
@[simp] theorem emit_rxQty : (emit r s).rxQty = s.rxQty := rfl
@[simp] theorem emit_rxExpect : (emit r s).rxExpect = s.rxExpect := rfl
@[simp] theorem emit_rxExc : (emit r s).rxExc = s.rxExc := rfl
@[simp] theorem emit_rxBuf : (emit r s).rxBuf = s.rxBuf := rfl
@[simp] theorem emit_inputs : (emit r s).inputs = s.inputs := rfl
@[simp] theorem emit_results : (emit r s).results = s.results ++ [r] := rfl

@[simp] theorem setCrc_crcAcc : (setCrc v s).crcAcc = v := rfl
@[simp] theorem setCrc_rxState : (setCrc v s).rxState = s.rxState := rfl
@[simp] theorem setCrc_rxQty : (setCrc v s).rxQty = s.rxQty := rfl
@[simp] theorem setCrc_rxExpect : (setCrc v s).rxExpect = s.rxExpect := rfl
@[simp] theorem setCrc_rxExc : (setCrc v s).rxExc = s.rxExc := rfl
@[simp] theorem setCrc_rxBuf : (setCrc v s).rxBuf = s.rxBuf := rfl
@[simp] theorem setCrc_inputs : (setCrc v s).inputs = s.inputs := rfl
@[simp] theorem setCrc_results : (setCrc v s).results = s.results := rfl

@[simp] theorem armReceiver_crcAcc : (armReceiver q s).crcAcc = s.crcAcc := rfl
@[simp] theorem armReceiver_rxState : (armReceiver q s).rxState = .receiving := rfl
@[simp] theorem armReceiver_rxQty : (armReceiver q s).rxQty = q := rfl
@[simp] theorem armReceiver_rxExc : (armReceiver q s).rxExc = false := rfl
@[simp] theorem armReceiver_rxBuf : (armReceiver q s).rxBuf = [] := rfl
@[simp] theorem armReceiver_inputs : (armReceiver q s).inputs = s.inputs := rfl
@[simp] theorem armReceiver_results : (armReceiver q s).results = s.results := rfl

/-- The expected length of RX.START fits its 18 bits (R7, R52). -/
@[simp] theorem armReceiver_rxExpect_toNat : (armReceiver q s).rxExpect.toNat = 5 + 2 * q.toNat := by
  have := q.isLt
  simp only [armReceiver, expectedLen, BitVec.toNat_ofNat]
  rw [if_neg (by simp), Nat.mod_eq_of_lt (by omega)]

@[simp] theorem clearReceiver_crcAcc : (clearReceiver s).crcAcc = s.crcAcc := rfl
@[simp] theorem clearReceiver_rxState : (clearReceiver s).rxState = .idle := rfl
@[simp] theorem clearReceiver_rxQty : (clearReceiver s).rxQty = 0#16 := rfl
@[simp] theorem clearReceiver_rxExpect : (clearReceiver s).rxExpect = 0#18 := rfl
@[simp] theorem clearReceiver_rxExc : (clearReceiver s).rxExc = false := rfl
@[simp] theorem clearReceiver_rxBuf : (clearReceiver s).rxBuf = [] := rfl
@[simp] theorem clearReceiver_inputs : (clearReceiver s).inputs = s.inputs := rfl
@[simp] theorem clearReceiver_results : (clearReceiver s).results = s.results := rfl

@[simp] theorem absorb_crcAcc : (absorb b s).crcAcc = s.crcAcc := rfl
@[simp] theorem absorb_rxQty : (absorb b s).rxQty = s.rxQty := rfl
@[simp] theorem absorb_rxBuf : (absorb b s).rxBuf = s.rxBuf ++ [b] := rfl
@[simp] theorem absorb_inputs : (absorb b s).inputs = s.inputs := rfl
@[simp] theorem absorb_results : (absorb b s).results = s.results := rfl

@[simp] theorem resetRegisters_crcAcc : (resetRegisters s).crcAcc = 0xFFFF#16 := rfl
@[simp] theorem resetRegisters_rxState : (resetRegisters s).rxState = .idle := rfl
@[simp] theorem resetRegisters_rxQty : (resetRegisters s).rxQty = 0#16 := rfl
@[simp] theorem resetRegisters_rxExpect : (resetRegisters s).rxExpect = 0#18 := rfl
@[simp] theorem resetRegisters_rxExc : (resetRegisters s).rxExc = false := rfl
@[simp] theorem resetRegisters_rxBuf : (resetRegisters s).rxBuf = [] := rfl
@[simp] theorem resetRegisters_inputs : (resetRegisters s).inputs = s.inputs := rfl
@[simp] theorem resetRegisters_results : (resetRegisters s).results = s.results := rfl

end Sys2Proof.Machine
end

