-- ==== Sys2Proof/Laws/Receiver.lean ====
section
/-! SUPPORT. What receiving bytes does (spec/42_response_parser.md R82 to R87): one lemma says everything
one byte can do, one lemma says everything a run of bytes can do, and both keep R21. -/

namespace Sys2Proof.Machine

variable {s t : State} {b : Byte} {bs : List Byte}

/-! ### Bytes and flags -/

theorem byteAt_append_left {f g : List Byte} {i : Nat} (h : i < f.length) :
    byteAt (f ++ g) i = byteAt f i := by
  simp [byteAt, List.getElem?_append_left h]

theorem byteAt_append_right {f g : List Byte} {i : Nat} :
    byteAt (f ++ g) (f.length + i) = byteAt g i := by
  simp [byteAt, List.getElem?_append_right]

theorem byteAt_take {f : List Byte} {i n : Nat} (h : i < n) : byteAt (f.take n) i = byteAt f i := by
  simp [byteAt, h]

theorem byteAt_eq_getElem {f : List Byte} {i : Nat} (h : i < f.length) : byteAt f i = f[i] := by
  simp [byteAt, h]

/-- A sequence of `n + 2` bytes is its first `n` and its last two. -/
theorem take_append_last_two {f : List Byte} {n : Nat} (h : f.length = n + 2) :
    f = f.take n ++ [byteAt f n, byteAt f (n + 1)] := by
  have hd : f.drop n = [byteAt f n, byteAt f (n + 1)] := by
    rw [List.drop_eq_getElem_cons (by omega), List.drop_eq_getElem_cons (by omega),
      List.drop_of_length_le (by omega), byteAt_eq_getElem (by omega), byteAt_eq_getElem (by omega)]
  rw [← hd, List.take_append_drop]

theorem exceptionSeen_iff (f : List Byte) :
    exceptionSeen f = true ↔ 2 ≤ f.length ∧ (byteAt f 1).getLsbD 7 = true := by
  match f with
  | [] => simp [exceptionSeen]
  | [_] => simp [exceptionSeen]
  | _ :: b :: _ => simp [exceptionSeen, exceptionBit, byteAt]

theorem exceptionSeen_append {f : List Byte} (h : 2 ≤ f.length) (g : List Byte) :
    exceptionSeen (f ++ g) = exceptionSeen f := by
  match f with
  | [] => simp at h
  | [_] => simp at h
  | _ :: _ :: _ => rfl

/-! ### One byte -/

theorem receiveByte_of_receiving (h : s.rxState = .receiving) :
    receiveByte b s = emit (.taken true) (absorb b s) := by
  simp [receiveByte, h]

theorem receiveByte_of_not_receiving (h : s.rxState ≠ .receiving) :
    receiveByte b s = emit (.taken false) s := by
  unfold receiveByte
  cases hs : s.rxState <;> simp_all

@[simp] theorem receiveByte_crcAcc : (receiveByte b s).crcAcc = s.crcAcc := by
  unfold receiveByte; split <;> rfl

@[simp] theorem receiveByte_rxQty : (receiveByte b s).rxQty = s.rxQty := by
  unfold receiveByte; split <;> rfl

@[simp] theorem receiveByte_inputs : (receiveByte b s).inputs = s.inputs := by
  unfold receiveByte; split <;> rfl

theorem absorb_rxExc : (absorb b s).rxExc = (s.rxExc || exceptionSeen (s.rxBuf ++ [b])) := by
  simp only [absorb, latchFires]
  cases s.rxExc <;> simp

/-- The latch, the expected length and the state after a byte is absorbed (R83 to R85). -/
theorem absorb_cases (h : s.rxState = .receiving) :
    ((s.rxExc = false ∧ exceptionSeen (s.rxBuf ++ [b]) = true ∧ (absorb b s).rxExc = true ∧
        (absorb b s).rxExpect = 5#18) ∨
      (¬ (s.rxExc = false ∧ exceptionSeen (s.rxBuf ++ [b]) = true) ∧ (absorb b s).rxExc = s.rxExc ∧
        (absorb b s).rxExpect = s.rxExpect)) ∧
    ((absorb b s).rxState = .complete ∧
        (absorb b s).rxBuf.length = (absorb b s).rxExpect.toNat ∨
      (absorb b s).rxState = .receiving ∧
        (absorb b s).rxBuf.length ≠ (absorb b s).rxExpect.toNat) := by
  constructor
  · cases he : s.rxExc <;> cases hx : exceptionSeen (s.rxBuf ++ [b]) <;>
      simp [absorb, expectAfter, latchFires, he, hx, Config.excLen]
  · by_cases hl : (s.rxBuf ++ [b]).length = (expectAfter s (s.rxBuf ++ [b])).toNat
    · left; exact ⟨if_pos hl, hl⟩
    · right; exact ⟨(if_neg hl).trans h, hl⟩

/-! ### The receiver invariants (R21) -/

theorem inv_of_receiving (h : s.rxState = .receiving) :
    s.Inv ↔ s.rxBuf.length < s.rxExpect.toNat ∧ s.Tracks := by
  simp [State.Inv, h]

theorem inv_of_complete (h : s.rxState = .complete) :
    s.Inv ↔ s.rxBuf.length = s.rxExpect.toNat ∧ s.Tracks := by
  simp [State.Inv, h]

theorem inv_of_idle (h : s.rxState = .idle) :
    s.Inv ↔ s.rxBuf = [] ∧ s.rxExc = false ∧ s.rxExpect = 0#18 ∧ s.rxQty = 0#16 := by
  simp [State.Inv, h]

/-- R21 speaks of the receiver alone. -/
theorem Inv.congr (hi : s.Inv) (h : s.SameReceiver t) : t.Inv := by
  obtain ⟨h1, h2, h3, h4, h5⟩ := h
  simpa only [State.Inv, State.Tracks, h1, h2, h3, h4, h5] using hi

theorem Tracks.expect (h : s.Tracks) :
    s.rxExpect.toNat = if s.rxExc then 5 else 5 + 2 * s.rxQty.toNat := by
  cases he : s.rxExc
  · simpa [he] using h.2.2 he
  · simpa [he] using h.2.1 he

theorem Tracks.five_le (h : s.Tracks) : 5 ≤ s.rxExpect.toNat := by
  rw [Tracks.expect h]; split <;> omega

theorem armReceiver_inv (q : U16) (s : State) : (armReceiver q s).Inv := by
  rw [inv_of_receiving rfl]
  simp [State.Tracks]

theorem clearReceiver_inv (s : State) : (clearReceiver s).Inv :=
  (inv_of_idle rfl).2 ⟨rfl, rfl, rfl, rfl⟩

theorem resetRegisters_inv (s : State) : (resetRegisters s).Inv :=
  (inv_of_idle rfl).2 ⟨rfl, rfl, rfl, rfl⟩

/-- In a receiving state that meets R21 the frame is shorter than the absorbed byte's new length asks,
or complete with it. -/
theorem absorb_inv (h : s.rxState = .receiving) (hi : s.Inv) : (absorb b s).Inv := by
  rw [inv_of_receiving h] at hi
  obtain ⟨hlen, hexc, h5, hq⟩ := hi
  obtain ⟨hlatch, hstate⟩ := absorb_cases (b := b) h
  have hseen := exceptionSeen_iff (s.rxBuf ++ [b])
  have hold := exceptionSeen_iff s.rxBuf
  -- once two bytes are there, the next ones do not change byte 1
  have hkeep : 2 ≤ s.rxBuf.length → exceptionSeen (s.rxBuf ++ [b]) = exceptionSeen s.rxBuf :=
    fun h2 => exceptionSeen_append h2 [b]
  have htr : (absorb b s).Tracks := by
    rcases hlatch with ⟨he, hx, he', hx'⟩ | ⟨hn, he', hx'⟩
    · refine ⟨iff_of_true he' (hseen.1 hx), fun _ => by simp [hx'], fun hf => ?_⟩
      rw [he'] at hf; cases hf
    · refine ⟨?_, ?_, ?_⟩
      · rw [he', absorb_rxBuf, ← hseen]
        constructor
        · intro he
          have h2 := hexc.1 he
          rw [hkeep h2.1, hold]; exact h2
        · intro hx
          by_contra he
          exact hn ⟨by simpa using he, hx⟩
      · rw [he', hx']; exact h5
      · rw [he', hx', absorb_rxQty]; exact hq
  rcases hstate with ⟨hc, hl⟩ | ⟨hr, hl⟩
  · rw [inv_of_complete hc]; exact ⟨hl, htr⟩
  · rw [inv_of_receiving hr]
    refine ⟨?_, htr⟩
    have hlen' : (absorb b s).rxBuf.length = s.rxBuf.length + 1 := by simp
    rcases hlatch with ⟨he, hx, he', hx'⟩ | ⟨_, _, hx'⟩
    · -- the latch fired: byte 1 is the byte that just came
      have h2 : s.rxBuf.length < 2 := by
        by_contra hge
        rw [hkeep (by omega)] at hx
        rw [hold, ← hexc, he] at hx
        cases hx
      rw [hx']; simp; omega
    · rw [hx'] at hl ⊢; omega

theorem receiveByte_inv (hi : s.Inv) : (receiveByte b s).Inv := by
  by_cases h : s.rxState = .receiving
  · rw [receiveByte_of_receiving h]
    exact Inv.congr (absorb_inv h hi) ⟨rfl, rfl, rfl, rfl, rfl⟩
  · rw [receiveByte_of_not_receiving h]
    exact Inv.congr hi ⟨rfl, rfl, rfl, rfl, rfl⟩

/-! ### A run of bytes -/

@[simp] theorem receiveBytes_nil : receiveBytes [] s = s := rfl
@[simp] theorem receiveBytes_cons : receiveBytes (b :: bs) s = receiveBytes bs (receiveByte b s) := rfl

theorem receiveBytes_append (f g : List Byte) (s : State) :
    receiveBytes (f ++ g) s = receiveBytes g (receiveBytes f s) := by
  induction f generalizing s with
  | nil => rfl
  | cons b f ih => exact ih _

@[simp] theorem receiveBytes_crcAcc : (receiveBytes bs s).crcAcc = s.crcAcc := by
  induction bs generalizing s with
  | nil => rfl
  | cons b bs ih => simp [ih]

@[simp] theorem receiveBytes_rxQty : (receiveBytes bs s).rxQty = s.rxQty := by
  induction bs generalizing s with
  | nil => rfl
  | cons b bs ih => simp [ih]

@[simp] theorem receiveBytes_inputs : (receiveBytes bs s).inputs = s.inputs := by
  induction bs generalizing s with
  | nil => rfl
  | cons b bs ih => simp [ih]

theorem receiveBytes_inv (hi : s.Inv) : (receiveBytes bs s).Inv := by
  induction bs generalizing s with
  | nil => exact hi
  | cons b bs ih => exact ih (receiveByte_inv hi)

/-- Outside RECEIVING every byte of a run is discarded (R86). -/
theorem receiveBytes_of_not_receiving (h : s.rxState ≠ .receiving) :
    receiveBytes bs s =
      { s with results := s.results ++ List.replicate bs.length (.taken false) } := by
  induction bs generalizing s with
  | nil => simp
  | cons b bs ih =>
    rw [receiveBytes_cons, receiveByte_of_not_receiving h, ih (by simpa using h)]
    simp [emit, List.replicate_succ]

/-- Everything a run of bytes does in RECEIVING: a first part of it is absorbed; either all of it and the
frame is still short, or as much as completes the frame, and the rest is discarded (R83 to R87). -/
theorem receiveBytes_of_receiving (h : s.rxState = .receiving) :
    ∃ k, k ≤ bs.length ∧ (receiveBytes bs s).rxBuf = s.rxBuf ++ bs.take k ∧
      (receiveBytes bs s).results = s.results ++ List.replicate k (.taken true) ++
        List.replicate (bs.length - k) (.taken false) ∧
      (s.rxExc = true → (receiveBytes bs s).rxExc = true) ∧
      (((receiveBytes bs s).rxState = .receiving ∧ k = bs.length) ∨
        ((receiveBytes bs s).rxState = .complete ∧
          (receiveBytes bs s).rxBuf.length = (receiveBytes bs s).rxExpect.toNat)) := by
  induction bs generalizing s with
  | nil => exact ⟨0, by simp [h]⟩
  | cons b bs ih =>
    obtain ⟨_, hc | hr⟩ := absorb_cases (b := b) h
    · -- this byte completes the frame
      have hc' : (emit (.taken true) (absorb b s)).rxState ≠ .receiving := by simp [hc.1]
      refine ⟨1, by simp, ?_⟩
      rw [receiveBytes_cons, receiveByte_of_receiving h, receiveBytes_of_not_receiving hc']
      refine ⟨by simp, by simp, fun he => ?_, .inr ⟨by simpa using hc.1, by simpa using hc.2⟩⟩
      simp [absorb_rxExc, he]
    · have hr' : (receiveByte b s).rxState = .receiving := by
        rw [receiveByte_of_receiving h]; exact hr.1
      obtain ⟨k, hk, hbuf, hres, hexc, hend⟩ := ih hr'
      refine ⟨k + 1, by simpa using hk, ?_⟩
      rw [receiveBytes_cons]
      refine ⟨?_, ?_, fun he => hexc ?_, ?_⟩
      · rw [hbuf, receiveByte_of_receiving h]; simp
      · rw [hres, receiveByte_of_receiving h]; simp [List.replicate_succ]
      · rw [receiveByte_of_receiving h]; simp [absorb_rxExc, he]
      · rcases hend with ⟨h1, h2⟩ | h1
        · exact .inl ⟨h1, by simp [h2]⟩
        · exact .inr h1

/-- From a state just armed (R82), the buffer is the run cut at the expected length, and the receiver is
complete exactly when the run reaches it. -/
theorem receiveBytes_armed (h : s.rxState = .receiving) (hi : s.Inv) (hb : s.rxBuf = []) :
    (receiveBytes bs s).rxBuf = bs.take (receiveBytes bs s).rxExpect.toNat ∧
      (bs.length < (receiveBytes bs s).rxExpect.toNat ∧ (receiveBytes bs s).rxState = .receiving ∨
        (receiveBytes bs s).rxExpect.toNat ≤ bs.length ∧ (receiveBytes bs s).rxState = .complete) := by
  have hi' := receiveBytes_inv (bs := bs) hi
  obtain ⟨k, hk, hbuf, _, _, hend⟩ := receiveBytes_of_receiving (bs := bs) h
  rw [hb, List.nil_append] at hbuf
  have hlen : (receiveBytes bs s).rxBuf.length = k := by rw [hbuf]; simpa using hk
  rcases hend with ⟨hr, hk'⟩ | ⟨hc, hl⟩
  · rw [inv_of_receiving hr] at hi'
    refine ⟨?_, .inl ⟨by omega, hr⟩⟩
    rw [hbuf, hk', List.take_of_length_le (by omega), List.take_of_length_le (by omega)]
  · exact ⟨by rw [hbuf, ← hl, hlen], .inr ⟨by omega, hc⟩⟩

end Sys2Proof.Machine
end

