-- ==== Sys2Proof/Laws/Commands.lean ====
section
/-! SUPPORT. One law per shared operation, and one inversion law for `exec` that says everything an
instruction that answers a next state can have done. -/

namespace Sys2Proof.Machine

variable {s t : State} {i : Instr}

/-! ### The shared operations -/

/-- REQ.BUILD's operation with an admitted code: the frame, and nothing else (R76, R78). -/
theorem buildRequest_admitted {slave fc : Byte} {addr qty : U16}
    (h : admittedFunctionCode fc = true) :
    buildRequest slave fc addr qty s =
      .next (emit (.frame (withTrailer [slave, fc, hi addr, lo addr, hi qty, lo qty])) s) := by
  simp [buildRequest, h, finish, withTrailer, Config.frameMax]

/-- REQ.BUILD's operation with any other code (R77). -/
theorem buildRequest_refused {slave fc : Byte} {addr qty : U16}
    (h : admittedFunctionCode fc = false) :
    buildRequest slave fc addr qty s = .refused .unsupportedFunctionCode := by
  simp [buildRequest, h]

theorem buildRequest_next {slave fc : Byte} {addr qty : U16}
    (h : buildRequest slave fc addr qty s = .next t) :
    admittedFunctionCode fc = true ∧
      t = emit (.frame (withTrailer [slave, fc, hi addr, lo addr, hi qty, lo qty])) s := by
  cases hf : admittedFunctionCode fc
  · rw [buildRequest_refused hf] at h; cases h
  · rw [buildRequest_admitted hf] at h; cases h; exact ⟨rfl, rfl⟩

theorem admittedFunctionCode_iff (fc : Byte) :
    admittedFunctionCode fc = true ↔ 1 ≤ fc.toNat ∧ fc.toNat ≤ 4 := by
  revert fc; decide

/-- RX.START is never refused: the largest frame fits the buffer (R82, D21). -/
theorem execRxStart_eq (q : U16) : execRxStart q s = .next (emit .none (armReceiver q s)) := by
  have := q.isLt
  unfold execRxStart
  rw [if_neg]
  · rfl
  · simp [expectedLen, Config.rxCap]; omega

theorem execCrcSeq_eq (bs : List Byte) :
    execCrcSeq bs s = .next (feedBytes bs (emit .none (setCrc Config.crcInit s))) := rfl

/-- What feeding bytes does: the accumulator, and one result a byte (R70, R73). -/
theorem feedBytes_eq (bs : List Byte) (s : State) :
    feedBytes bs s =
      { s with
        crcAcc := crcFrom s.crcAcc bs
        results := s.results ++ List.replicate bs.length .none } := by
  induction bs generalizing s with
  | nil => simp [feedBytes]
  | cons b bs ih => simp [feedBytes, ih, feedByte, emit, setCrc, List.replicate_succ]

/-- The three verdicts, CRC first (R91, R116). -/
theorem judge_cases (exc : Bool) (buf : List Byte) (computed received : U16)
    (hc : computed = crc16 (buf.take (buf.length - 2)))
    (hr : received = le16 (byteAt buf (buf.length - 2)) (byteAt buf (buf.length - 1))) :
    (computed ≠ received ∧ judge exc buf = .crcMismatch computed received) ∨
    (computed = received ∧ exc = true ∧
      judge exc buf = .modbusException (byteAt buf 2) (excLabel (byteAt buf 2))) ∨
    (computed = received ∧ exc = false ∧ judge exc buf = .payload (buf.take (buf.length - 2))) := by
  subst hc hr
  unfold judge
  by_cases h : crc16 (buf.take (buf.length - 2)) =
      le16 (byteAt buf (buf.length - 2)) (byteAt buf (buf.length - 1))
  · cases exc
    · right; right; simp [h]
    · right; left; simp [h]
  · left; simp [h]

theorem judge_true_not_payload (buf p : List Byte) : judge true buf ≠ .payload p := by
  rcases judge_cases true buf _ _ rfl rfl with ⟨_, h⟩ | ⟨_, _, h⟩ | ⟨_, h, _⟩
  · rw [h]; simp
  · rw [h]; simp
  · cases h

theorem judge_false_not_exception (buf : List Byte) (c : Byte) (l : ExcLabel) :
    judge false buf ≠ .modbusException c l := by
  rcases judge_cases false buf _ _ rfl rfl with ⟨_, h⟩ | ⟨_, h, _⟩ | ⟨_, _, h⟩
  · rw [h]; simp
  · cases h
  · rw [h]; simp

theorem judge_not_frame (exc : Bool) (buf : List Byte) (n : Nat) : judge exc buf ≠ .frameTooLong n := by
  rcases judge_cases exc buf _ _ rfl rfl with ⟨_, h⟩ | ⟨_, _, h⟩ | ⟨_, _, h⟩ <;> rw [h] <;> simp

/-- A complete frame has at least five bytes (R21, R91). -/
theorem five_le_of_complete (hi : s.Inv) (hc : s.rxState = .complete) : 5 ≤ s.rxBuf.length := by
  rw [inv_of_complete hc] at hi
  rw [hi.1]; exact Tracks.five_le hi.2

/-- In COMPLETE, with the five bytes a frame has, judging answers with the verdict. -/
theorem validate_of_long (hc : s.rxState = .complete) (hl : 5 ≤ s.rxBuf.length) :
    validate s = .next (emit (judge s.rxExc s.rxBuf) s) := by
  simp only [validate, hc]
  rw [if_neg (by omega)]; rfl

/-- In COMPLETE, under R21, judging answers with the verdict and writes nothing (R91, R97). -/
theorem validate_of_complete (hi : s.Inv) (hc : s.rxState = .complete) :
    validate s = .next (emit (judge s.rxExc s.rxBuf) s) :=
  validate_of_long hc (five_le_of_complete hi hc)

theorem validate_of_not_complete (hc : s.rxState ≠ .complete) :
    validate s = .refused .validateBeforeComplete := by
  unfold validate
  cases h : s.rxState <;> simp_all

theorem validate_next (h : validate s = .next t) :
    s.rxState = .complete ∧ 5 ≤ s.rxBuf.length ∧ t = emit (judge s.rxExc s.rxBuf) s := by
  by_cases hc : s.rxState = .complete
  · simp only [validate, hc] at h
    split at h
    · cases h
    · cases h; exact ⟨hc, by omega, rfl⟩
  · rw [validate_of_not_complete hc] at h; cases h

theorem receiveFrame_next {f : List Byte} (h : receiveFrame f s = .next t) :
    (t = receiveBytes f s ∧ (receiveBytes f s).rxState ≠ .complete) ∨
      ((receiveBytes f s).rxState = .complete ∧
        t = emit (judge (receiveBytes f s).rxExc (receiveBytes f s).rxBuf) (receiveBytes f s)) := by
  unfold receiveFrame at h
  split at h
  · exact .inr ⟨‹_›, (validate_next h).2.2⟩
  · cases h; exact .inl ⟨rfl, ‹_›⟩

/-- Under R21 a response frame always ends in a next state. -/
theorem receiveFrame_of_inv (hi : s.Inv) (f : List Byte) :
    receiveFrame f s = .next
      (if (receiveBytes f s).rxState = .complete then
        emit (judge (receiveBytes f s).rxExc (receiveBytes f s).rxBuf) (receiveBytes f s)
      else receiveBytes f s) := by
  unfold receiveFrame
  split
  · exact validate_of_complete (receiveBytes_inv hi) ‹_›
  · rfl

/-! ### The value decoder (R102 to R104) -/

theorem coilBytes_le_iff {q n : Nat} : 3 + coilBytes q ≤ n ↔ 24 + q ≤ n * 8 := by
  unfold coilBytes; omega

theorem execDecRegs_of_short {q : U16} {p : List Byte} (h : p.length < 3 + 2 * q.toNat) :
    execDecRegs q p s = .fault .payloadTooShort := if_pos h

theorem execDecRegs_of_long {q : U16} {p : List Byte} (h : 3 + 2 * q.toNat ≤ p.length) :
    execDecRegs q p s = .next (emit (.regs ((List.range q.toNat).map (registerAt p))) s) :=
  if_neg (by omega)

theorem execDecCoils_of_short {q : U16} {p : List Byte} (h : p.length < 3 + coilBytes q.toNat) :
    execDecCoils q p s = .fault .payloadTooShort := if_pos h

theorem execDecCoils_of_long {q : U16} {p : List Byte} (h : 3 + coilBytes q.toNat ≤ p.length) :
    execDecCoils q p s = .next (emit (.coils ((List.range q.toNat).map (coilAt p))) s) :=
  if_neg (by omega)

/-! ### What an instruction can have done -/

/-- The instructions that write no register. -/
def Instr.isQuiet : Instr → Bool
  | .crcRead => true
  | .crcCalc _ => true
  | .reqBuild _ _ _ _ => true
  | .rxStatus => true
  | .rxValidate => true
  | .decRegs _ _ => true
  | .decCoils _ _ => true
  | .wireReq01 _ _ _ => true
  | .wireReq02 _ _ _ => true
  | .wireReq03 _ _ _ => true
  | .wireReq04 _ _ _ => true
  | .crcInit => false
  | .crcFeed _ => false
  | .rxStart _ => false
  | .rxByte _ => false
  | .rxAbort => false
  | .rxChunk _ => false
  | .crcSeq _ => false
  | .wireRspNormal _ _ _ _ _ => false
  | .wireRspException _ _ _ _ => false

/-- The instruction is one of the two response frames. -/
def Instr.isResponse : Instr → Bool
  | .wireRspNormal _ _ _ _ _ => true
  | .wireRspException _ _ _ _ => true
  | _ => false

/-- Everything an instruction that answers a next state can have done. -/
theorem exec_next_cases (h : exec i s = .next t) :
    (Instr.isQuiet i = true ∧ ∃ r, t = emit r s ∧ ∀ n, r ≠ .frameTooLong n) ∨
    (i = .crcInit ∧ t = emit .none (setCrc Config.crcInit s)) ∨
    (∃ b, i = .crcFeed b ∧ t = feedByte b s) ∨
    (∃ bs, i = .crcSeq bs ∧ t = feedBytes bs (emit .none (setCrc Config.crcInit s))) ∨
    (∃ q, i = .rxStart q ∧ t = emit .none (armReceiver q s)) ∨
    (i = .rxAbort ∧ t = emit .none (clearReceiver s)) ∨
    (∃ b, i = .rxByte b ∧ t = receiveByte b s) ∨
    (∃ bs, i = .rxChunk bs ∧ t = receiveBytes bs s) ∨
    (Instr.isResponse i = true ∧
      ((t = receiveBytes (encode i) s ∧ (receiveBytes (encode i) s).rxState ≠ .complete) ∨
        ((receiveBytes (encode i) s).rxState = .complete ∧
          t = emit (judge (receiveBytes (encode i) s).rxExc (receiveBytes (encode i) s).rxBuf)
            (receiveBytes (encode i) s)))) := by
  cases i with
  | crcInit => cases h; exact .inr (.inl ⟨rfl, rfl⟩)
  | crcFeed b => cases h; exact .inr (.inr (.inl ⟨b, rfl, rfl⟩))
  | crcRead => cases h; exact .inl ⟨rfl, _, rfl, by simp⟩
  | crcCalc bs => cases h; exact .inl ⟨rfl, _, rfl, by simp⟩
  | reqBuild slave fc addr qty => exact .inl ⟨rfl, _, (buildRequest_next h).2, by simp⟩
  | rxStart q =>
    rw [show exec (.rxStart q) s = execRxStart q s from rfl, execRxStart_eq] at h
    cases h; exact .inr (.inr (.inr (.inr (.inl ⟨q, rfl, rfl⟩))))
  | rxByte b => cases h; exact .inr (.inr (.inr (.inr (.inr (.inr (.inl ⟨b, rfl, rfl⟩))))))
  | rxAbort => cases h; exact .inr (.inr (.inr (.inr (.inr (.inl ⟨rfl, rfl⟩)))))
  | rxStatus => cases h; exact .inl ⟨rfl, _, rfl, by simp⟩
  | rxValidate => exact .inl ⟨rfl, _, (validate_next h).2.2, judge_not_frame _ _⟩
  | decRegs q p =>
    simp only [exec, execDecRegs] at h
    split at h
    · cases h
    · cases h; exact .inl ⟨rfl, _, rfl, by simp⟩
  | decCoils q p =>
    simp only [exec, execDecCoils] at h
    split at h
    · cases h
    · cases h; exact .inl ⟨rfl, _, rfl, by simp⟩
  | rxChunk bs => cases h; exact .inr (.inr (.inr (.inr (.inr (.inr (.inr (.inl ⟨bs, rfl, rfl⟩)))))))
  | crcSeq bs => cases h; exact .inr (.inr (.inr (.inl ⟨bs, rfl, rfl⟩)))
  | wireReq01 slave addr qty =>
    change buildRequest slave 0x01#8 addr qty s = .next t at h
    exact .inl ⟨rfl, _, (buildRequest_next h).2, by simp⟩
  | wireReq02 slave addr qty =>
    change buildRequest slave 0x02#8 addr qty s = .next t at h
    exact .inl ⟨rfl, _, (buildRequest_next h).2, by simp⟩
  | wireReq03 slave addr qty =>
    change buildRequest slave 0x03#8 addr qty s = .next t at h
    exact .inl ⟨rfl, _, (buildRequest_next h).2, by simp⟩
  | wireReq04 slave addr qty =>
    change buildRequest slave 0x04#8 addr qty s = .next t at h
    exact .inl ⟨rfl, _, (buildRequest_next h).2, by simp⟩
  | wireRspNormal slave fc count data crc =>
    exact .inr (.inr (.inr (.inr (.inr (.inr (.inr (.inr ⟨rfl, receiveFrame_next h⟩)))))))
  | wireRspException slave fc code crc =>
    exact .inr (.inr (.inr (.inr (.inr (.inr (.inr (.inr ⟨rfl, receiveFrame_next h⟩)))))))

/-! ### Sequences of commands -/

@[simp] theorem execAll_nil : execAll [] s = .next s := rfl

theorem execAll_cons_next {is : List Instr} (h : exec i s = .next t) :
    execAll (i :: is) s = execAll is t := by
  simp [execAll, h]

theorem execAll_append {is js : List Instr} (h : execAll is s = .next t) :
    execAll (is ++ js) s = execAll js t := by
  induction is generalizing s with
  | nil => cases h; rfl
  | cons i is ih =>
    simp only [List.cons_append, execAll] at h ⊢
    cases hi : exec i s with
    | next u => rw [hi] at h; exact ih h
    | fault r => rw [hi] at h; cases h
    | refused r => rw [hi] at h; cases h

/-- RX.CHUNK's run of bytes is its RX.BYTEs (R63, R87). -/
theorem execAll_rxBytes (bs : List Byte) (s : State) :
    execAll (bs.map .rxByte) s = .next (receiveBytes bs s) := by
  induction bs generalizing s with
  | nil => rfl
  | cons b bs ih => exact ih _

/-- CRC.SEQ's run of bytes is its CRC.FEEDs (R63). -/
theorem execAll_crcFeeds (bs : List Byte) (s : State) :
    execAll (bs.map .crcFeed) s = .next (feedBytes bs s) := by
  induction bs generalizing s with
  | nil => rfl
  | cons b bs ih => exact ih _

end Sys2Proof.Machine
end

