-- ==== Sys2Proof/Laws/Decode.lean ====
section
/-! SUPPORT. Reading what was written: each operand form, each opcode (spec/30_encoding.md R54, R55). -/

namespace Sys2Proof

open Sys2Proof.Machine

@[simp] theorem opcodeOf_code (o : Opcode) : opcodeOf o.code = some o := by
  cases o <;> decide

theorem code_of_opcodeOf {b : Byte} {o : Opcode} (h : opcodeOf b = some o) : o.code = b := by
  simpa using List.find?_some h

@[simp] theorem takeU8_cons (b : Byte) (r : List Byte) : takeU8 (b :: r) = some (b, r) := rfl

theorem takeU8_some {bs r : List Byte} {b : Byte} (h : takeU8 bs = some (b, r)) : bs = b :: r := by
  cases bs <;> simp_all [takeU8]

@[simp] theorem takeU16_u16Bytes (v : U16) (r : List Byte) :
    takeU16 (u16Bytes v ++ r) = some (v, r) := by
  simp [takeU16, u16Bytes]

theorem takeU16_some {bs r : List Byte} {v : U16} (h : takeU16 bs = some (v, r)) :
    bs = u16Bytes v ++ r := by
  match bs, h with
  | [], h => simp [takeU16] at h
  | [_], h => simp [takeU16] at h
  | hB :: lB :: rest, h =>
    simp only [takeU16, Option.some.injEq, Prod.mk.injEq] at h
    obtain ⟨rfl, rfl⟩ := h
    simp [u16Bytes]

theorem u32Of_u32Bytes {m : Nat} (h : m < 4294967296) :
    ∃ m3 m2 m1 m0, u32Bytes m = [m3, m2, m1, m0] ∧ u32Of m3 m2 m1 m0 = m := by
  refine ⟨_, _, _, _, rfl, ?_⟩
  simp only [u32Of, BitVec.toNat_ofNat]
  omega

theorem u32Bytes_u32Of (m3 m2 m1 m0 : Byte) : u32Bytes (u32Of m3 m2 m1 m0) = [m3, m2, m1, m0] := by
  have h3 := m3.isLt
  have h2 := m2.isLt
  have h1 := m1.isLt
  have h0 := m0.isLt
  simp only [u32Bytes, u32Of, List.cons.injEq, and_true]
  refine ⟨?_, ?_, ?_, ?_⟩ <;> apply BitVec.eq_of_toNat_eq <;> rw [BitVec.toNat_ofNat] <;> omega

theorem u32Of_lt (m3 m2 m1 m0 : Byte) : u32Of m3 m2 m1 m0 < 4294967296 := by
  have h3 := m3.isLt
  have h2 := m2.isLt
  have h1 := m1.isLt
  have h0 := m0.isLt
  simp only [u32Of]
  omega

@[simp] theorem takeBytes_bytesField {s : List Byte} (h : s.length < 4294967296) (r : List Byte) :
    takeBytes (bytesField s ++ r) = some (s, r) := by
  obtain ⟨m3, m2, m1, m0, hb, hm⟩ := u32Of_u32Bytes h
  simp [bytesField, hb, takeBytes, hm]

theorem takeBytes_some {bs r s : List Byte} (h : takeBytes bs = some (s, r)) :
    bs = bytesField s ++ r ∧ s.length < 4294967296 := by
  match bs, h with
  | [], h => simp [takeBytes] at h
  | [_], h => simp [takeBytes] at h
  | [_, _], h => simp [takeBytes] at h
  | [_, _, _], h => simp [takeBytes] at h
  | m3 :: m2 :: m1 :: m0 :: rest, h =>
    simp only [takeBytes] at h
    split at h
    · rename_i hle
      simp only [Option.some.injEq, Prod.mk.injEq] at h
      obtain ⟨rfl, rfl⟩ := h
      have hlen : (rest.take (u32Of m3 m2 m1 m0)).length = u32Of m3 m2 m1 m0 := by simpa using hle
      refine ⟨?_, hlen.trans_lt (u32Of_lt _ _ _ _)⟩
      simp [bytesField, hlen, u32Bytes_u32Of]
    · cases h

/-- A command's bytes start with an opcode of R55. -/
theorem decode_code_cons (o : Opcode) (bs : List Byte) :
    decode (o.code :: bs) =
      match decodeOperands o bs with
      | none => .error (.truncated o)
      | some r => .ok r := by
  have h := opcodeOf_code o
  cases hd : decodeOperands o bs <;> simp [decode, h, hd]

/-- What decodes starts with an opcode of R55, and its operands were read. -/
theorem decode_ok {bs rest : List Byte} {i : Instr} (h : decode bs = .ok (i, rest)) :
    ∃ o r, bs = Opcode.code o :: r ∧ decodeOperands o r = some (i, rest) := by
  cases bs with
  | nil => cases h
  | cons b r =>
    simp only [decode] at h
    cases ho : opcodeOf b with
    | none => rw [ho] at h; cases h
    | some o =>
      rw [ho] at h
      cases hd : decodeOperands o r with
      | none => simp only [hd] at h; cases h
      | some x =>
        simp only [hd, Except.ok.injEq] at h
        exact ⟨o, r, by rw [code_of_opcodeOf ho], by rw [hd, h]⟩

/-- The exception bit and the seven bits below it make up byte 1 (R46). -/
@[simp] theorem functionByte_bit (exc : Bool) (fc : BitVec 7) :
    (functionByte exc fc).getLsbD 7 = exc := by
  cases exc <;> simp [functionByte]

@[simp] theorem functionByte_setWidth (exc : Bool) (fc : BitVec 7) :
    (functionByte exc fc).setWidth 7 = fc := by
  apply BitVec.eq_of_getLsbD_eq
  intro k hk
  have h80 : (0x80#8).getLsbD k = false := by
    revert hk; revert k; decide
  cases exc
  · simp [functionByte, hk]
  · simp only [functionByte, if_true, BitVec.getLsbD_setWidth, BitVec.getLsbD_or, h80]
    simp [hk, show k < 8 by omega]

theorem functionByte_of_bits (b : Byte) : functionByte (b.getLsbD 7) (b.setWidth 7) = b := by
  revert b; decide

end Sys2Proof
end

