-- ==== Sys2Proof/Laws/PerInstr.lean ====
section
/-! SUPPORT. Per-instruction laws. `EncodedLength`: how many bytes each instruction's encoding has
(spec/30_encoding.md R41, R44, R45, R54, R55, R61, R63). -/

namespace Sys2Proof.Laws.EncodedLength

open Sys2Proof.Machine

/-- The encoding of the instruction has the length the rules give it. -/
def Statement (i : Instr) : Prop :=
  (encode i).length =
    match i with
    | .crcInit | .crcRead | .rxAbort | .rxStatus | .rxValidate => 1
    | .crcFeed _ | .rxByte _ => 2
    | .rxStart _ => 3
    | .reqBuild _ _ _ _ => 7
    | .crcCalc s => 5 + s.length
    | .decRegs _ p | .decCoils _ p => 7 + p.length
    | .rxChunk bs => 2 * bs.length
    | .crcSeq bs => 1 + 2 * bs.length
    | .wireReq01 _ _ _ | .wireReq02 _ _ _ | .wireReq03 _ _ _ | .wireReq04 _ _ _ => 8
    | .wireRspNormal _ _ _ data _ => 5 + data.length
    | .wireRspException _ _ _ _ => 5

theorem crcInit : Statement .crcInit := rfl

theorem crcFeed (b : Byte) : Statement (.crcFeed b) := rfl

theorem crcRead : Statement .crcRead := rfl

theorem crcCalc (s : List Byte) : Statement (.crcCalc s) := by
  simp [Statement, encode, bytesField, u32Bytes]; omega

theorem reqBuild (slave fc : Byte) (addr qty : U16) : Statement (.reqBuild slave fc addr qty) := rfl

theorem rxStart (q : U16) : Statement (.rxStart q) := rfl

theorem rxByte (b : Byte) : Statement (.rxByte b) := rfl

theorem rxAbort : Statement .rxAbort := rfl

theorem rxStatus : Statement .rxStatus := rfl

theorem rxValidate : Statement .rxValidate := rfl

theorem decRegs (q : U16) (p : List Byte) : Statement (.decRegs q p) := by
  simp [Statement, encode, bytesField, u32Bytes, u16Bytes]; omega

theorem decCoils (q : U16) (p : List Byte) : Statement (.decCoils q p) := by
  simp [Statement, encode, bytesField, u32Bytes, u16Bytes]; omega

theorem rxChunk (bs : List Byte) : Statement (.rxChunk bs) := by
  simp only [Statement, encode]
  induction bs with
  | nil => rfl
  | cons b bs ih => simp [encodeRxByte, ih]; omega

theorem crcSeq (bs : List Byte) : Statement (.crcSeq bs) := by
  simp only [Statement, encode, List.length_cons]
  induction bs with
  | nil => rfl
  | cons b bs ih => simp [encodeCrcFeed] at ih ⊢; omega

theorem wireReq01 (slave : Byte) (addr qty : U16) : Statement (.wireReq01 slave addr qty) := by
  simp [Statement, encode, withTrailer, requestFields, u16Bytes]

theorem wireReq02 (slave : Byte) (addr qty : U16) : Statement (.wireReq02 slave addr qty) := by
  simp [Statement, encode, withTrailer, requestFields, u16Bytes]

theorem wireReq03 (slave : Byte) (addr qty : U16) : Statement (.wireReq03 slave addr qty) := by
  simp [Statement, encode, withTrailer, requestFields, u16Bytes]

theorem wireReq04 (slave : Byte) (addr qty : U16) : Statement (.wireReq04 slave addr qty) := by
  simp [Statement, encode, withTrailer, requestFields, u16Bytes]

theorem wireRspNormal (slave : Byte) (fc : BitVec 7) (count : Byte) (data : List Byte) (crc : U16) :
    Statement (.wireRspNormal slave fc count data crc) := by
  simp [Statement, encode]; omega

theorem wireRspException (slave : Byte) (fc : BitVec 7) (code : Byte) (crc : U16) :
    Statement (.wireRspException slave fc code crc) := by
  simp [Statement, encode]

end Sys2Proof.Laws.EncodedLength
end

