-- ==== Sys2Proof/Laws/TwoRuns.lean ====
section
/-! SUPPORT. One law about two runs: what an instruction does depends on the receiver, and on `CRC_ACC` only
where it reads it; never on the pending inputs or on the results already handed out. -/

namespace Sys2Proof.Machine

/-- The two outcomes agree: the same stop, or next states whose receivers agree, with the same new
results, with their own inputs, and with `CRC_ACC` left alone or written the same. -/
def Agree (s s' : State) : Host.Outcome State Fault Refusal → Host.Outcome State Fault Refusal → Prop
  | .next t, .next t' =>
    t.SameReceiver t' ∧ (∃ rs, t.results = s.results ++ rs ∧ t'.results = s'.results ++ rs) ∧
      t.inputs = s.inputs ∧ t'.inputs = s'.inputs ∧
      ((t.crcAcc = s.crcAcc ∧ t'.crcAcc = s'.crcAcc) ∨ t.crcAcc = t'.crcAcc)
  | .fault r, .fault r' => r = r'
  | .refused r, .refused r' => r = r'
  | _, _ => False

/-- CRC.READ and CRC.FEED are the instructions whose effect depends on `CRC_ACC`. -/
def Instr.readsAccumulator : Instr → Bool
  | .crcRead => true
  | .crcFeed _ => true
  | _ => false

variable {s s' : State}

theorem SameReceiver.refl (s : State) : s.SameReceiver s := ⟨rfl, rfl, rfl, rfl, rfl⟩

/-- Equal states, put together from their fields. -/
theorem State.ext_fields {s t : State} (hr : s.SameReceiver t) (hc : t.crcAcc = s.crcAcc)
    (hi : t.inputs = s.inputs) (ho : t.results = s.results) : t = s := by
  obtain ⟨h1, h2, h3, h4, h5⟩ := hr
  cases s; cases t; simp_all

theorem agree_emit (r : Result) (hr : s.SameReceiver s') :
    Agree s s' (.next (emit r s)) (.next (emit r s')) :=
  ⟨hr, ⟨[r], rfl, rfl⟩, rfl, rfl, .inl ⟨rfl, rfl⟩⟩

theorem absorb_sameReceiver (b : Byte) (hr : s.SameReceiver s') :
    (absorb b s).SameReceiver (absorb b s') := by
  obtain ⟨h1, h2, h3, h4, h5⟩ := hr
  simp [State.SameReceiver, absorb, expectAfter, h1, h2, h3, h4, h5]

theorem agree_receiveByte (b : Byte) (hr : s.SameReceiver s') :
    Agree s s' (.next (receiveByte b s)) (.next (receiveByte b s')) := by
  by_cases h : s.rxState = .receiving
  · rw [receiveByte_of_receiving h, receiveByte_of_receiving (hr.1.trans h)]
    exact ⟨absorb_sameReceiver b hr, ⟨[_], rfl, rfl⟩, rfl, rfl, .inl ⟨rfl, rfl⟩⟩
  · rw [receiveByte_of_not_receiving h, receiveByte_of_not_receiving (hr.1 ▸ h)]
    exact agree_emit _ hr

theorem agree_receiveBytes (bs : List Byte) (hr : s.SameReceiver s') :
    Agree s s' (.next (receiveBytes bs s)) (.next (receiveBytes bs s')) := by
  induction bs generalizing s s' with
  | nil => exact ⟨hr, ⟨[], by simp, by simp⟩, rfl, rfl, .inl ⟨rfl, rfl⟩⟩
  | cons b bs ih =>
    obtain ⟨h1, ⟨rs, h2, h2'⟩, _⟩ := agree_receiveByte b hr
    obtain ⟨g1, ⟨qs, g2, g2'⟩, _⟩ := ih h1
    exact ⟨g1, ⟨rs ++ qs, by rw [receiveBytes_cons, g2, h2, List.append_assoc],
      by rw [receiveBytes_cons, g2', h2', List.append_assoc]⟩, by simp, by simp,
      .inl ⟨by simp, by simp⟩⟩

theorem agree_validate (hr : s.SameReceiver s') : Agree s s' (validate s) (validate s') := by
  obtain ⟨h1, h2, h3, h4, h5⟩ := hr
  by_cases hc : s.rxState = .complete
  · by_cases hl : s.rxBuf.length < 5
    · simp [validate, h1, hc, h5, hl, Agree]
    · simp only [validate, h1, hc, h5, hl, h4, if_false]
      exact agree_emit _ ⟨h1, h2, h3, h4, h5⟩
  · rw [validate_of_not_complete hc, validate_of_not_complete (h1 ▸ hc)]
    rfl

theorem agree_receiveFrame (f : List Byte) (hr : s.SameReceiver s') :
    Agree s s' (receiveFrame f s) (receiveFrame f s') := by
  have h := agree_receiveBytes f hr
  obtain ⟨h1, ⟨rs, h2, h2'⟩, h3, h4, _⟩ := h
  by_cases hc : (receiveBytes f s).rxState = .complete
  · simp only [receiveFrame, hc, h1.1.trans hc, if_true]
    have hv := agree_validate h1
    revert hv
    cases validate (receiveBytes f s) <;> cases validate (receiveBytes f s') <;>
      simp only [Agree, imp_self]
    rintro ⟨g1, ⟨qs, g2, g2'⟩, g3, g4, g5⟩
    refine ⟨g1, ⟨rs ++ qs, by rw [g2, h2, List.append_assoc], by rw [g2', h2', List.append_assoc]⟩,
      g3.trans h3, g4.trans h4, ?_⟩
    simpa using g5
  · have hc' : (receiveBytes f s').rxState ≠ .complete := h1.1 ▸ hc
    simp only [receiveFrame, hc, hc', if_false]
    exact agree_receiveBytes f hr

theorem agree_buildRequest (slave fc : Byte) (addr qty : U16) (hr : s.SameReceiver s') :
    Agree s s' (buildRequest slave fc addr qty s) (buildRequest slave fc addr qty s') := by
  cases hf : admittedFunctionCode fc
  · rw [buildRequest_refused hf, buildRequest_refused hf]; rfl
  · rw [buildRequest_admitted hf, buildRequest_admitted hf]; exact agree_emit _ hr

/-- The law: an instruction run on two states whose receivers agree (and whose `CRC_ACC` agree, where it
reads it) ends the same way. -/
theorem exec_agree (i : Instr) (hr : s.SameReceiver s')
    (hc : s'.crcAcc = s.crcAcc ∨ Instr.readsAccumulator i = false) :
    Agree s s' (exec i s) (exec i s') := by
  have hrx := hr
  obtain ⟨h1, h2, h3, h4, h5⟩ := hr
  cases i with
  | crcInit => exact ⟨hrx, ⟨[_], rfl, rfl⟩, rfl, rfl, .inr rfl⟩
  | crcFeed b =>
    rcases hc with hc | hc
    · exact ⟨hrx, ⟨[_], rfl, rfl⟩, rfl, rfl, .inr (by simp [feedByte, hc])⟩
    · cases hc
  | crcRead =>
    rcases hc with hc | hc
    · simp only [exec, execCrcRead, finish, hc]; exact agree_emit _ hrx
    · cases hc
  | crcCalc bs => exact agree_emit _ hrx
  | reqBuild slave fc addr qty => exact agree_buildRequest slave fc addr qty hrx
  | rxStart q =>
    simp only [exec, execRxStart_eq]
    exact ⟨⟨rfl, rfl, rfl, rfl, rfl⟩, ⟨[_], rfl, rfl⟩, rfl, rfl, .inl ⟨rfl, rfl⟩⟩
  | rxByte b => exact agree_receiveByte b hrx
  | rxAbort => exact ⟨⟨rfl, rfl, rfl, rfl, rfl⟩, ⟨[_], rfl, rfl⟩, rfl, rfl, .inl ⟨rfl, rfl⟩⟩
  | rxStatus =>
    simp only [exec, execRxStatus, finish, h1, h2, h3, h4, h5]; exact agree_emit _ hrx
  | rxValidate => exact agree_validate hrx
  | decRegs q p =>
    simp only [exec, execDecRegs]; split
    · rfl
    · exact agree_emit _ hrx
  | decCoils q p =>
    simp only [exec, execDecCoils]; split
    · rfl
    · exact agree_emit _ hrx
  | rxChunk bs => exact agree_receiveBytes bs hrx
  | crcSeq bs =>
    simp only [exec, execCrcSeq_eq, feedBytes_eq]
    exact ⟨hrx, ⟨.none :: List.replicate bs.length .none, by simp, by simp⟩, rfl, rfl, .inr rfl⟩
  | wireReq01 slave addr qty => exact agree_buildRequest slave 0x01#8 addr qty hrx
  | wireReq02 slave addr qty => exact agree_buildRequest slave 0x02#8 addr qty hrx
  | wireReq03 slave addr qty => exact agree_buildRequest slave 0x03#8 addr qty hrx
  | wireReq04 slave addr qty => exact agree_buildRequest slave 0x04#8 addr qty hrx
  | wireRspNormal slave fc count data crc => exact agree_receiveFrame _ hrx
  | wireRspException slave fc code crc => exact agree_receiveFrame _ hrx

end Sys2Proof.Machine
end

