-- ==== Sys2Proof/Tests/Slice0.lean ====
section
/-! SUPPORT. The model's own tests: the refusals of WellFormed, one written-out word per constructor,
single steps with the results of spec/95_test_vectors.md, and for every obligation that has hypotheses a
state and operands that meet them. -/

namespace Sys2Proof.Tests

open Sys2Proof Sys2Proof.Machine

/-! ### Helpers -/

/-- The state of an outcome; the reset state of a stop. -/
def after : Host.Outcome State Fault Refusal → State
  | .next t => t
  | .fault _ => State.reset
  | .refused _ => State.reset

/-- The outcome is a next state. -/
def runs : Host.Outcome State Fault Refusal → Bool
  | .next _ => true
  | .fault _ => false
  | .refused _ => false

/-- The result an instruction hands out last. -/
def lastOf (i : Instr) (s : State) : Option Result := (after (exec i s)).results.getLast?

/-- The instruction a byte sequence is read as, with nothing left over. -/
def whole (bs : List Byte) : Option Instr :=
  match decode bs with
  | .ok (i, []) => some i
  | _ => none

/-- The receiver registers, as RX.STATUS shows them, but for the buffer. -/
def receiving (q : U16) (expect : BitVec 18) (exc : Bool) (buf : List Byte) : State :=
  { State.reset with
    rxState := .receiving, rxQty := q, rxExpect := expect, rxExc := exc, rxBuf := buf }

/-- A receiver that holds a frame. -/
def complete (q : U16) (expect : BitVec 18) (exc : Bool) (buf : List Byte) : State :=
  { State.reset with
    rxState := .complete, rxQty := q, rxExpect := expect, rxExc := exc, rxBuf := buf }

/-- S2's frame. -/
def s2 : List Byte := [0x01#8, 0x03#8, 0x04#8, 0x00#8, 0x11#8, 0x00#8, 0x22#8, 0x2A#8, 0x2F#8]

/-- S2's payload. -/
def s2Payload : List Byte := [0x01#8, 0x03#8, 0x04#8, 0x00#8, 0x11#8, 0x00#8, 0x22#8]

/-- S3's frame. -/
def s3 : List Byte := [0x01#8, 0x83#8, 0x02#8, 0xC0#8, 0xF1#8]

/-- S4's frame. -/
def s4 : List Byte := [0x01#8, 0x03#8, 0x04#8, 0x00#8, 0x12#8, 0x00#8, 0x22#8, 0x2A#8, 0x2F#8]

/-- The block with S2's, S3's and S4's frame held, and after V-A2's three bytes. -/
def heldS2 : State := complete 2#16 9#18 false s2
def heldS3 : State := complete 2#16 5#18 true s3
def heldS4 : State := complete 2#16 9#18 false s4
def partway : State := receiving 2#16 9#18 false [0x01#8, 0x03#8, 0x04#8]

theorem heldS2_inv : heldS2.Inv :=
  show (_ ∧ _) from ⟨by decide, by decide, by decide, by decide⟩

theorem heldS3_inv : heldS3.Inv :=
  show (_ ∧ _) from ⟨by decide, by decide, by decide, by decide⟩

theorem heldS4_inv : heldS4.Inv :=
  show (_ ∧ _) from ⟨by decide, by decide, by decide, by decide⟩

theorem partway_inv : partway.Inv :=
  show (_ ∧ _) from ⟨by decide, by decide, by decide, by decide⟩

/-- The state after RX.START 2 and one byte. -/
theorem firstByte_inv (q : U16) (e : BitVec 18) (b : Byte) (h : 1 < e.toNat)
    (he : e.toNat = 5 + 2 * q.toNat) : (receiving q e false [b]).Inv :=
  show (_ ∧ _) from ⟨h, by simp [receiving], by simp [receiving], fun _ => he⟩

/-! ### WellFormed refuses each ill-formed term -/

theorem test_crcCalc_too_long :
    (Instr.crcCalc (List.replicate 4294967296 0#8)).wellFormed = false := by
  simp only [Instr.wellFormed, bytesOperandFits, List.length_replicate]; decide

theorem test_decRegs_too_long :
    (Instr.decRegs 0#16 (List.replicate 4294967296 0#8)).wellFormed = false := by
  simp only [Instr.wellFormed, bytesOperandFits, List.length_replicate]; decide

theorem test_decCoils_too_long :
    (Instr.decCoils 0#16 (List.replicate 4294967296 0#8)).wellFormed = false := by
  simp only [Instr.wellFormed, bytesOperandFits, List.length_replicate]; decide

theorem test_response_odd_data :
    (Instr.wireRspNormal 1#8 3#7 1#8 [0#8] 0#16).wellFormed = false := by decide

theorem test_response_long_data :
    (Instr.wireRspNormal 1#8 3#7 1#8 (List.replicate 131072 0#8) 0#16).wellFormed = false := by
  simp only [Instr.wellFormed, responseDataFits, List.length_replicate]; decide

/-! ### Written-out words (spec/95_test_vectors.md section 3, spec/30_encoding.md R41, R44, R45, R55) -/

theorem test_word_crcInit : whole [0x01#8] = some .crcInit := by decide

theorem test_word_crcFeed : whole [0x02#8, 0xC4#8] = some (.crcFeed 0xC4#8) := by decide

theorem test_word_crcRead : whole [0x03#8] = some .crcRead := by decide

theorem test_word_crcCalc :
    whole [0x04#8, 0x00#8, 0x00#8, 0x00#8, 0x03#8, 0x31#8, 0x32#8, 0x33#8] =
      some (.crcCalc [0x31#8, 0x32#8, 0x33#8]) := by decide

theorem test_word_reqBuild :
    whole [0x10#8, 0x11#8, 0x03#8, 0x01#8, 0x6B#8, 0x02#8, 0x03#8] =
      some (.reqBuild 0x11#8 0x03#8 0x016B#16 0x0203#16) := by decide

theorem test_word_rxStart : whole [0x20#8, 0x01#8, 0x02#8] = some (.rxStart 0x0102#16) := by decide

theorem test_word_rxByte : whole [0x21#8, 0x83#8] = some (.rxByte 0x83#8) := by decide

theorem test_word_rxAbort : whole [0x22#8] = some .rxAbort := by decide

theorem test_word_rxStatus : whole [0x23#8] = some .rxStatus := by decide

theorem test_word_rxValidate : whole [0x24#8] = some .rxValidate := by decide

theorem test_word_decRegs :
    whole [0x30#8, 0x00#8, 0x02#8, 0x00#8, 0x00#8, 0x00#8, 0x07#8, 0x01#8, 0x03#8, 0x04#8, 0x00#8,
        0x11#8, 0x00#8, 0x22#8] = some (.decRegs 2#16 s2Payload) := by decide

theorem test_word_decCoils :
    whole [0x31#8, 0x00#8, 0x09#8, 0x00#8, 0x00#8, 0x00#8, 0x05#8, 0x01#8, 0x01#8, 0x04#8, 0xCD#8,
        0x01#8] = some (.decCoils 9#16 [0x01#8, 0x01#8, 0x04#8, 0xCD#8, 0x01#8]) := by decide

/-- P1's `RX.CHUNK`: its words are those of its RX.BYTEs, and read as them. -/
theorem test_word_rxChunk :
    encode (.rxChunk [0x01#8, 0x03#8, 0x04#8]) =
        [0x21#8, 0x01#8, 0x21#8, 0x03#8, 0x21#8, 0x04#8] ∧
      decode [0x21#8, 0x01#8, 0x21#8, 0x03#8, 0x21#8, 0x04#8] =
        .ok (.rxByte 0x01#8, [0x21#8, 0x03#8, 0x21#8, 0x04#8]) := ⟨rfl, rfl⟩

/-- P5's `CRC.SEQ`, cut to two bytes. -/
theorem test_word_crcSeq :
    encode (.crcSeq [0x01#8, 0x03#8]) = [0x01#8, 0x02#8, 0x01#8, 0x02#8, 0x03#8] ∧
      decode [0x01#8, 0x02#8, 0x01#8, 0x02#8, 0x03#8] =
        .ok (.crcInit, [0x02#8, 0x01#8, 0x02#8, 0x03#8]) := ⟨rfl, rfl⟩

/-- V-B5. -/
theorem test_word_wireReq01 :
    decodeRequestFrame [0x01#8, 0x01#8, 0x00#8, 0x00#8, 0x00#8, 0x09#8, 0xFC#8, 0x0C#8] =
      some (.wireReq01 0x01#8 0x0000#16 0x0009#16) := by decide +kernel

/-- V-B6. -/
theorem test_word_wireReq02 :
    decodeRequestFrame [0x01#8, 0x02#8, 0x00#8, 0x10#8, 0x00#8, 0x08#8, 0x78#8, 0x09#8] =
      some (.wireReq02 0x01#8 0x0010#16 0x0008#16) := by decide +kernel

/-- V-B2. -/
theorem test_word_wireReq03 :
    decodeRequestFrame [0x11#8, 0x03#8, 0x00#8, 0x6B#8, 0x00#8, 0x03#8, 0x76#8, 0x87#8] =
      some (.wireReq03 0x11#8 0x006B#16 0x0003#16) := by decide +kernel

/-- V-B7. -/
theorem test_word_wireReq04 :
    decodeRequestFrame [0x11#8, 0x04#8, 0x00#8, 0x08#8, 0x00#8, 0x01#8, 0xB2#8, 0x98#8] =
      some (.wireReq04 0x11#8 0x0008#16 0x0001#16) := by decide +kernel

/-- V-B13's function code, and S1's frame with its trailer's bytes exchanged, are no request frames. -/
theorem test_word_request_refused :
    decodeRequestFrame [0x01#8, 0x03#8, 0x00#8, 0x00#8, 0x00#8, 0x02#8, 0x0B#8, 0xC4#8] = none ∧
      decodeRequestFrame (withTrailer [0x01#8, 0x05#8, 0x00#8, 0x00#8, 0x00#8, 0x01#8]) = none := by
  decide +kernel

/-- V-V11. -/
theorem test_word_wireRspNormal :
    decodeResponseFrame 1#16 [0x01#8, 0x03#8, 0x02#8, 0x12#8, 0x34#8, 0xB5#8, 0x33#8] =
      some (.wireRspNormal 0x01#8 0x03#7 0x02#8 [0x12#8, 0x34#8] 0x33B5#16, []) := by decide

/-- V-V13, with a byte after it. -/
theorem test_word_wireRspException :
    decodeResponseFrame 1#16 [0x01#8, 0x84#8, 0x07#8, 0x02#8, 0xC2#8, 0x55#8] =
      some (.wireRspException 0x01#8 0x04#7 0x07#8 0xC202#16, [0x55#8]) := by decide

/-- A table word is read as a command, its missing operand bytes as 0, and is what runs first. -/
theorem test_tableWord :
    decodeTableWord 8 0x31 = some (.decCoils 0#16 []) ∧
      decodeTableWord 16 0x8321 = some (.rxByte 0x83#8) ∧ decodeTableWord 8 0xFF = none ∧
      (after (step (State.reset.withFetchWord 8 0x20))).rxExpect = 5#18 := by decide

/-! ### Single steps (the results of spec/95_test_vectors.md) -/

/-- V-C21. -/
theorem test_crcInit :
    (after (exec .crcInit { State.reset with crcAcc := 0x1234#16 })).crcAcc = 0xFFFF#16 := by decide

/-- V-C3 and V-C12. -/
theorem test_crcFeed :
    (after (exec (.crcFeed 0x01#8) State.reset)).crcAcc = 0x807E#16 ∧
      (after (exec (.crcFeed 0x56#8) { State.reset with crcAcc := 0x1234#16 })).crcAcc = 0xE993#16 := by
  decide +kernel

/-- V-C22. -/
theorem test_crcRead : lastOf .crcRead State.reset = some (.crc 0xFFFF#16) := by decide

/-- V-C23 and V-C13. -/
theorem test_crcCalc :
    lastOf (.crcCalc [0x31#8, 0x32#8, 0x33#8, 0x34#8, 0x35#8, 0x36#8, 0x37#8, 0x38#8, 0x39#8])
        State.reset = some (.crc 0x4B37#16) ∧
      lastOf (.crcCalc []) State.reset = some (.crc 0xFFFF#16) := by decide +kernel

/-- V-B12. -/
theorem test_reqBuild :
    lastOf (.reqBuild 0xFF#8 0x03#8 0xFFFF#16 0xFFFF#16) State.reset =
      some (.frame [0xFF#8, 0x03#8, 0xFF#8, 0xFF#8, 0xFF#8, 0xFF#8, 0x51#8, 0x80#8]) := by
  decide +kernel

/-- V-B14. -/
theorem test_reqBuild_refused :
    exec (.reqBuild 0x01#8 0x83#8 0x0000#16 0x0001#16) State.reset =
      .refused .unsupportedFunctionCode := rfl

/-- V-A15. -/
theorem test_rxStart_largest :
    lastOf .rxStatus (after (exec (.rxStart 0xFFFF#16) heldS3)) =
      some (.status .receiving false 0 131075#18 0xFFFF#16) := by decide

/-- V-A4: the latch. -/
theorem test_rxByte_latch :
    after (exec (.rxByte 0x83#8) (receiving 2#16 9#18 false [0x01#8])) =
      { receiving 2#16 5#18 true [0x01#8, 0x83#8] with results := [.taken true] } := by decide

/-- V-A17: a byte in COMPLETE. -/
theorem test_rxByte_discarded :
    after (exec (.rxByte 0x01#8) heldS2) = { heldS2 with results := [.taken false] } := by decide

/-- V-A18. -/
theorem test_rxAbort :
    after (exec .rxAbort partway) = { State.reset with results := [.none] } := by decide

/-- V-A2. -/
theorem test_rxStatus : lastOf .rxStatus partway = some (.status .receiving false 3 9#18 2#16) := by
  decide

/-- V-V1 and V-V3. -/
theorem test_rxValidate :
    lastOf .rxValidate heldS2 = some (.payload s2Payload) ∧
      lastOf .rxValidate heldS4 = some (.crcMismatch 0x2FDA#16 0x2F2A#16) := by decide +kernel

/-- V-V4 and V-V5: the CRC comes first on the exception path too. -/
theorem test_rxValidate_exception :
    lastOf .rxValidate heldS3 = some (.modbusException 2#8 .illegalDataAddress) ∧
      lastOf .rxValidate { heldS3 with rxBuf := [0x01#8, 0x83#8, 0x02#8, 0xC0#8, 0xF2#8] } =
        some (.crcMismatch 0xF1C0#16 0xF2C0#16) := by decide +kernel

/-- V-D1 and V-D3. -/
theorem test_decRegs :
    lastOf (.decRegs 2#16 s2Payload) State.reset = some (.regs [17#16, 34#16]) ∧
      lastOf (.decRegs 1#16 [0x01#8, 0x03#8, 0x02#8, 0x12#8, 0x34#8, 0xAA#8]) State.reset =
        some (.regs [0x1234#16]) := by decide

/-- V-D10 and V-D11. -/
theorem test_decRegs_short :
    exec (.decRegs 2#16 (s2Payload.take 6)) State.reset = .fault .payloadTooShort ∧
      exec (.decRegs 0#16 [0x01#8, 0x03#8]) State.reset = .fault .payloadTooShort := ⟨rfl, rfl⟩

/-- V-D5. -/
theorem test_decCoils :
    lastOf (.decCoils 9#16 [0x01#8, 0x01#8, 0x04#8, 0xCD#8, 0x01#8, 0x00#8, 0x00#8]) State.reset =
      some (.coils [true, false, true, true, false, false, true, true, true]) := by decide

/-- V-D12. -/
theorem test_decCoils_short :
    exec (.decCoils 9#16 [0x01#8, 0x01#8, 0x04#8, 0xCD#8]) State.reset = .fault .payloadTooShort := rfl

/-- V-A5: the bytes after the frame's end are discarded. -/
theorem test_rxChunk :
    (after (exec (.rxChunk (s3 ++ [0x00#8, 0x00#8])) (receiving 2#16 9#18 false []))).results =
        [.taken true, .taken true, .taken true, .taken true, .taken true, .taken false,
          .taken false] ∧
      (after (exec (.rxChunk (s3 ++ [0x00#8, 0x00#8])) (receiving 2#16 9#18 false []))).rxBuf = s3 := by
  decide

/-- V-C20. -/
theorem test_crcSeq :
    (after (exec (.crcSeq [0x01#8, 0x83#8, 0x02#8]) { State.reset with crcAcc := 0#16 })).crcAcc =
      0xF1C0#16 := by decide +kernel

/-- V-B9. -/
theorem test_wireReq01 :
    lastOf (.wireReq01 0x01#8 0x0000#16 0x0001#16) State.reset =
      some (.frame [0x01#8, 0x01#8, 0x00#8, 0x00#8, 0x00#8, 0x01#8, 0xFD#8, 0xCA#8]) := by
  decide +kernel

/-- V-B8. -/
theorem test_wireReq02 :
    lastOf (.wireReq02 0xF7#8 0x00C4#16 0x0016#16) State.reset =
      some (.frame [0xF7#8, 0x02#8, 0x00#8, 0xC4#8, 0x00#8, 0x16#8, 0xAC#8, 0xAF#8]) := by
  decide +kernel

/-- V-B4. -/
theorem test_wireReq03 :
    lastOf (.wireReq03 0x01#8 0x0000#16 0x007D#16) State.reset =
      some (.frame [0x01#8, 0x03#8, 0x00#8, 0x00#8, 0x00#8, 0x7D#8, 0x85#8, 0xEB#8]) := by
  decide +kernel

/-- V-B3. -/
theorem test_wireReq04 :
    lastOf (.wireReq04 0x01#8 0x0000#16 0x0001#16) State.reset =
      some (.frame [0x01#8, 0x04#8, 0x00#8, 0x00#8, 0x00#8, 0x01#8, 0x31#8, 0xCA#8]) := by
  decide +kernel

/-- V-V11. -/
theorem test_wireRspNormal :
    lastOf (.wireRspNormal 0x01#8 0x03#7 0x02#8 [0x12#8, 0x34#8] 0x33B5#16)
        (receiving 1#16 7#18 false []) =
      some (.payload [0x01#8, 0x03#8, 0x02#8, 0x12#8, 0x34#8]) := by decide +kernel

/-- V-V13. -/
theorem test_wireRspException :
    lastOf (.wireRspException 0x01#8 0x04#7 0x07#8 0xC202#16) (receiving 1#16 7#18 false []) =
      some (.modbusException 7#8 .unknown) := by decide +kernel

/-- V-R1, and a reset step from a state that holds a frame. -/
theorem test_reset :
    (after (step { heldS3 with inputs := [.reset] })) = State.reset := by decide

/-- P1's status record (2, 0, 9, 9, 2) as the bytes of R56. -/
theorem test_statusBytes :
    resultBytes (.status .complete false 9 9#18 2#16) =
      [0x02#8, 0x00#8, 0x00#8, 0x00#8, 0x00#8, 0x09#8, 0x00#8, 0x00#8, 0x00#8, 0x09#8, 0x00#8,
        0x02#8] := by decide

/-- R62: a byte pair in large and in small letters, and a decimal number of three digits. -/
theorem test_assembly_digits :
    assembleLine ("CRC.CALC ".toList ++ [leftBrace] ++ "CD 9f".toList ++ [rightBrace]) =
        some [.crcCalc [0xCD#8, 0x9F#8]] ∧
      assembleLine "RX.BYTE 207".toList = some [.rxByte 0xCF#8] ∧
      assembleLine "RX.BYTE 1A".toList = none := by decide

/-- R62: numbers out of range, other cases and missing operands are not of the syntax. -/
theorem test_assembly_refused :
    assembleLine "RX.BYTE 256".toList = none ∧ assembleLine "rx.byte 1".toList = none ∧
      assembleLine "RX.START".toList = none ∧ assembleLine "RX.BYTE 0x1G".toList = none := by
  decide

/-! ### Witnesses: the hypotheses of each obligation, met together -/

/-- Inputs for the statements about a reset, and about a step with nothing pending. -/
theorem witness_ResetSetsEveryRegister :
    ({ heldS3 with inputs := [.reset, .command [0x23#8]] } : State).inputs =
      .reset :: [.command [0x23#8]] := rfl

theorem witness_ResetKeepsHostSide :
    ({ partway with inputs := [.reset], results := [.none] } : State).inputs = .reset :: [] := rfl

theorem witness_StepRunsDecodedCommand :
    ({ partway with inputs := [.command [0x21#8, 0x11#8], .reset] } : State).inputs =
        .command [0x21#8, 0x11#8] :: [.reset] ∧
      decode [0x21#8, 0x11#8] = .ok (.rxByte 0x11#8, []) ∧ State.reset.inputs = [] := ⟨rfl, rfl, rfl⟩

theorem witness_IssuedCommandsRunInOrder :
    ∀ i ∈ [Instr.rxStart 2#16, .rxChunk [0x01#8, 0x83#8], .crcSeq [], .rxStatus].flatMap expansion,
      i.isCommand = true ∧ i.wellFormed = true := by decide

/-- Both ends of each range of illegal opcodes, and a legal one beside each. -/
theorem witness_IllegalOpcodesRefused :
    (∀ b ∈ [0x00#8, 0x05#8, 0x0F#8, 0x11#8, 0x1F#8, 0x25#8, 0x2F#8, 0x32#8, 0xFF#8],
      runs (step { State.reset with inputs := [.command [b]] }) = false ∧ opcodeOf b = none) ∧
    ∀ b ∈ [0x01#8, 0x04#8, 0x10#8, 0x20#8, 0x24#8, 0x30#8, 0x31#8], opcodeOf b ≠ none := by decide

/-- A command with its last byte missing, with no byte at all, and with a byte over. -/
theorem witness_MalformedCommandsRefused :
    (Instr.rxStart 2#16).isCommand = true ∧ (Instr.rxStart 2#16).wellFormed = true ∧
      ([0x20#8, 0x00#8] <+: encode (.rxStart 2#16) ∧ [0x20#8, 0x00#8] ≠ encode (.rxStart 2#16)) ∧
      (([] : List Byte) <+: encode (.rxStart 2#16) ∧ [] ≠ encode (.rxStart 2#16)) ∧
      (encode (.rxStart 2#16) <+: [0x20#8, 0x00#8, 0x02#8, 0x00#8] ∧
        [0x20#8, 0x00#8, 0x02#8, 0x00#8] ≠ encode (.rxStart 2#16)) := by decide

/-- A `bytes` operand of no byte and of 256, and the largest `u16`. -/
theorem witness_CommandLayouts :
    ([] : List Byte).length = (0#8).toNat * 2 ^ 24 + (0#8).toNat * 2 ^ 16 + (0#8).toNat * 2 ^ 8 +
        (0#8).toNat ∧
      (List.replicate 256 7#8).length = (0#8).toNat * 2 ^ 24 + (0#8).toNat * 2 ^ 16 +
        (1#8).toNat * 2 ^ 8 + (0#8).toNat ∧
      (0xFFFF#16).toNat = (0xFF#8).toNat * 256 + (0xFF#8).toNat := by
  rw [List.length_replicate]; decide

theorem witness_CommandsDecodeAsEncoded :
    (Instr.decRegs 2#16 s2Payload).isCommand = true ∧
      (Instr.decRegs 2#16 s2Payload).wellFormed = true := by decide

theorem witness_DecodedCommandsReencode :
    decode [0x22#8, 0x23#8] = .ok (.rxAbort, [0x23#8]) := rfl

theorem witness_RequestFramesRoundTrip :
    decodeRequestFrame [0x01#8, 0x03#8, 0x00#8, 0x00#8, 0x00#8, 0x02#8, 0xC4#8, 0x0B#8] =
      some (.wireReq03 0x01#8 0x0000#16 0x0002#16) := by decide +kernel

/-- Quantity 0 and quantity 1, and an exception frame. -/
theorem witness_ResponseFramesRoundTrip :
    ([] : List Byte).length = 2 * (0#16).toNat ∧ [0x12#8, 0x34#8].length = 2 * (1#16).toNat ∧
      decodeResponseFrame 0#16 [0x01#8, 0x03#8, 0x00#8, 0x20#8, 0xF0#8, 0x55#8] =
        some (.wireRspNormal 0x01#8 0x03#7 0x00#8 [] 0xF020#16, [0x55#8]) ∧
      decodeResponseFrame 2#16 s3 = some (.wireRspException 0x01#8 0x03#7 0x02#8 0xF1C0#16, []) := by
  decide

theorem witness_CrcCalcOnItsOwnDatapath :
    runs (exec (.reqBuild 0x01#8 0x04#8 0#16 1#16) partway) = true ∧
      runs (exec .rxValidate heldS4) = true := by decide +kernel

/-- The frame bytes of S2: its payload and its trailer. -/
theorem witness_OneByteErrorDetected :
    withTrailer s2Payload = s2 ∧ 0 < s2.length ∧ byteAt s2 0 ≠ 0x81#8 ∧ 8 < s2.length ∧
      byteAt s2 8 ≠ 0x2E#8 := by decide +kernel

/-- The shortest frame, and a burst at each end of the range. -/
theorem witness_SixteenBitBurstDetected :
    withTrailer [0x80#8] = [] ++ [0x80#8, 0xBE#8, 0xE0#8] ++ [] ∧ (0xFFFF#16) ≠ 0#16 ∧
      (0xFFFF#16).setWidth 24 <<< 0 = 0x00FFFF#24 ∧ (0xFFFF#16).setWidth 24 <<< 8 = 0xFFFF00#24 := by
  decide +kernel

theorem witness_RequestFrameLayout :
    ∀ fc ∈ [0x01#8, 0x02#8, 0x03#8, 0x04#8],
      (fc = 0x01#8 ∨ fc = 0x02#8 ∨ fc = 0x03#8 ∨ fc = 0x04#8) := by decide

theorem witness_BuiltFramesCarryTheirCrc :
    runs (exec (.reqBuild 0x01#8 0x03#8 0#16 2#16) partway) = true ∧
      (after (exec (.reqBuild 0x01#8 0x03#8 0#16 2#16) partway)).results = partway.results ++
        [.frame [0x01#8, 0x03#8, 0x00#8, 0x00#8, 0x00#8, 0x02#8, 0xC4#8, 0x0B#8]] := by
  decide +kernel

/-- Both ends of both ranges of function codes. -/
theorem witness_OnlyFourFunctionCodes :
    (∀ fc ∈ [0x00#8, 0x05#8, 0xFF#8], fc.toNat < 1 ∨ 4 < fc.toNat) ∧
      ∀ fc ∈ [0x01#8, 0x04#8], 1 ≤ fc.toNat ∧ fc.toNat ≤ 4 := by decide

theorem witness_NeverFrameTooLong :
    .frameTooLong 251 ∈
      (after (exec .crcRead { State.reset with results := [.frameTooLong 251] })).results := by decide

/-- A state in IDLE that meets R21. -/
theorem reset_inv : State.reset.Inv :=
  show (_ ∧ _) from ⟨rfl, rfl, rfl, rfl⟩

theorem witness_AbortClearsReceiver : State.reset.Inv ∧ State.reset.rxState = .idle :=
  ⟨reset_inv, rfl⟩

theorem witness_StatusReportsReceiver :
    ({ State.reset with crcAcc := 7#16 } : State).Inv ∧
      ({ State.reset with crcAcc := 7#16 } : State).rxState = .idle :=
  ⟨show (_ ∧ _) from ⟨rfl, rfl, rfl, rfl⟩, rfl⟩

theorem witness_BytesOutsideFrameDiscarded :
    State.reset.rxState ≠ .receiving ∧ heldS2.rxState ≠ .receiving := by decide

/-- A byte outside a frame, the byte that latches, a second byte that does not, the byte that completes and the one before it. -/
theorem witness_ReceivedByte :
    heldS2.rxState ≠ .receiving ∧ (receiving 2#16 9#18 false [0x01#8]).rxState = .receiving ∧
      (after (exec (.rxByte 0x80#8) (receiving 2#16 9#18 false [0x01#8]))).rxExc = true ∧
      (after (exec (.rxByte 0x7F#8) (receiving 2#16 9#18 false [0x01#8]))).rxExc = false ∧
      (after (exec (.rxByte 0xF1#8) (receiving 2#16 5#18 true (s3.take 4)))).rxState = .complete ∧
      (after (exec (.rxByte 0xC0#8) (receiving 2#16 5#18 true (s3.take 3)))).rxState = .receiving := by
  decide

/-- The latch in a state that meets R21, at the smallest quantity. -/
theorem witness_ReceivedByte_latch :
    (receiving 0#16 5#18 false [0x01#8]).Inv ∧
      runs (exec (.rxByte 0x83#8) (receiving 0#16 5#18 false [0x01#8])) = true ∧
      (receiving 0#16 5#18 false [0x01#8]).rxExc = false ∧
      (after (exec (.rxByte 0x83#8) (receiving 0#16 5#18 false [0x01#8]))).rxExc = true :=
  ⟨firstByte_inv _ _ _ (by decide) (by decide), by decide, by decide, by decide⟩

theorem witness_ChunksAbsorbedUpToFrameEnd :
    partway.Inv ∧ partway.rxState = .receiving ∧ heldS2.Inv ∧ heldS2.rxState ≠ .receiving :=
  ⟨partway_inv, rfl, heldS2_inv, by decide⟩

/-- A frame cut after two bytes, an exception frame with a byte over, and S2's frame. -/
theorem witness_LengthDecidedOnce :
    2 ≤ (s2.take 2).length ∧ (s2.take 2).length < 5 + 2 * (2#16).toNat ∧
      2 ≤ (s3 ++ [0x00#8]).length ∧ 5 ≤ (s3 ++ [0x00#8]).length ∧ (byteAt s3 1).getLsbD 7 = true ∧
      5 + 2 * (2#16).toNat ≤ s2.length ∧ (byteAt s2 1).getLsbD 7 = false := by decide

/-- V-A12, and the smallest quantity. -/
theorem witness_StandardCoilResponseNeverCompletes :
    1 ≤ (9#16).toNat ∧
      [0x01#8, 0x01#8, 0x02#8, 0xCD#8, 0x01#8, 0x2C#8, 0xAC#8].length =
        5 + ((9#16).toNat + 7) / 8 ∧
      (byteAt [0x01#8, 0x01#8, 0x02#8, 0xCD#8, 0x01#8, 0x2C#8, 0xAC#8] 1).getLsbD 7 = false ∧
      1 ≤ (1#16).toNat ∧
      [0x01#8, 0x01#8, 0x01#8, 0x01#8, 0x00#8, 0x00#8].length = 5 + ((1#16).toNat + 7) / 8 := by decide

theorem witness_ValidateOnlyWhenComplete :
    State.reset.rxState ≠ .complete ∧ partway.rxState ≠ .complete ∧ heldS2.Inv ∧
      heldS2.rxState = .complete :=
  ⟨by decide, by decide, heldS2_inv, rfl⟩

/-- Each of the three verdicts. -/
theorem witness_ValidateJudgesFrame :
    (heldS4.Inv ∧ heldS4.rxState = .complete ∧ crc16 (heldS4.rxBuf.take 7) ≠
        le16 (byteAt heldS4.rxBuf 7) (byteAt heldS4.rxBuf 8)) ∧
      (heldS3.Inv ∧ heldS3.rxState = .complete ∧ crc16 (heldS3.rxBuf.take 3) =
        le16 (byteAt heldS3.rxBuf 3) (byteAt heldS3.rxBuf 4) ∧ heldS3.rxExc = true) ∧
      (heldS2.Inv ∧ heldS2.rxState = .complete ∧ crc16 (heldS2.rxBuf.take 7) =
        le16 (byteAt heldS2.rxBuf 7) (byteAt heldS2.rxBuf 8) ∧ heldS2.rxExc = false) ∧
      partway.rxState ≠ .complete :=
  ⟨⟨heldS4_inv, rfl, by decide +kernel⟩, ⟨heldS3_inv, rfl, by decide +kernel, rfl⟩,
    ⟨heldS2_inv, rfl, by decide +kernel, rfl⟩, by decide⟩

theorem witness_ValidateIsRepeatable : runs (exec .rxValidate heldS2) = true := by decide +kernel

theorem witness_ValidatedPayloadsDecode :
    heldS2.Inv ∧ runs (exec .rxValidate heldS2) = true ∧
      (after (exec .rxValidate heldS2)).results = heldS2.results ++ [.payload s2Payload] :=
  ⟨heldS2_inv, by decide +kernel, by decide +kernel⟩

/-- S2's frame: its first bit, its exception bit and the last bit of its trailer. -/
theorem witness_SingleBitMutationsRejected :
    s2.length = 5 + 2 * (2#16).toNat ∧ (byteAt s2 1).getLsbD 7 = false ∧
      crc16 (s2.take (s2.length - 2)) = le16 (byteAt s2 (s2.length - 2)) (byteAt s2 (s2.length - 1)) ∧
      0 < s2.length ∧ 1 < s2.length ∧ 8 < s2.length := by decide +kernel

/-- Codes on both sides of each edge of the mapped set. -/
theorem witness_ExceptionLabels :
    (∀ c ∈ [1#8, 6#8, 8#8, 10#8, 11#8], c.toNat ∈ [1, 2, 3, 4, 5, 6, 8, 10, 11]) ∧
      ∀ c ∈ [0#8, 7#8, 9#8, 12#8, 255#8], c.toNat ∉ [1, 2, 3, 4, 5, 6, 8, 10, 11] := by decide

/-- Frames that leave the receiver COMPLETE and not. -/
theorem witness_WireResponsesAreReceived :
    partway.Inv ∧
      (after (execAll ((encode (.wireRspException 1#8 3#7 2#8 0#16)).map .rxByte) partway)).rxState ≠
        .complete ∧
      heldS2.Inv ∧
      (after (execAll ((encode (.wireRspException 1#8 3#7 2#8 0#16)).map .rxByte) heldS2)).rxState =
        .complete :=
  ⟨partway_inv, by decide, heldS2_inv, by decide⟩

/-- S2's and S3's frames with their trailers, and a wrong one. -/
theorem witness_WireResponsesJudged :
    runs (exec (.rxStart 2#16) State.reset) = true ∧ (s2Payload.drop 3).length = 2 * (2#16).toNat ∧
      s2Payload = [0x01#8, (0x03#7).setWidth 8, 0x04#8] ++ s2Payload.drop 3 ∧
      crc16 s2Payload = 0x2F2A#16 ∧ crc16 s2Payload ≠ 0#16 ∧
      crc16 [0x01#8, (0x03#7).setWidth 8 ||| 0x80#8, 0x02#8] = 0xF1C0#16 := by decide +kernel

/-- One byte short, and just long enough. -/
theorem witness_RegistersDecoded :
    (s2Payload.take 6).length < 3 + 2 * (2#16).toNat ∧ 3 + 2 * (2#16).toNat ≤ s2Payload.length ∧
      [0x01#8, 0x03#8].length < 3 + 2 * (0#16).toNat ∧ 0 < (2#16).toNat ∧ 1 < (2#16).toNat := by decide

/-- One byte short, and just long enough, for 8 and for 9 bits. -/
theorem witness_CoilsDecoded :
    [0x01#8, 0x01#8, 0x04#8, 0xCD#8].length * 8 < 24 + (9#16).toNat ∧
      24 + (9#16).toNat ≤ [0x01#8, 0x01#8, 0x04#8, 0xCD#8, 0x01#8].length * 8 ∧
      24 + (8#16).toNat ≤ [0x01#8, 0x01#8, 0x02#8, 0xA5#8].length * 8 ∧ 8 < (9#16).toNat := by decide

theorem witness_RegisterReadRoundTrip :
    (0x03#8 = 0x03#8 ∨ 0x03#8 = 0x04#8) ∧ [0x0011#16, 0x0022#16].length = (2#16).toNat ∧
      s2Payload = [0x01#8, 0x03#8, 0x04#8] ++
        [0x0011#16, 0x0022#16].flatMap (fun v => [v.extractLsb' 8 8, v.extractLsb' 0 8]) := by decide

/-- P4's response. -/
theorem witness_CoilReadRoundTrip :
    (0x01#8 = 0x01#8 ∨ 0x01#8 = 0x02#8) ∧
      ([0xCD#8, 0x01#8] ++ List.replicate 16 0x00#8).length = 2 * (9#16).toNat ∧ 8 < (9#16).toNat := by
  decide

theorem witness_StepKeepsReceiverInvariants :
    ({ partway with inputs := [.command [0x21#8, 0x00#8]] } : State).Inv ∧
      runs (step { partway with inputs := [.command [0x21#8, 0x00#8]] }) = true :=
  ⟨show (_ ∧ _) from ⟨by decide, by decide, by decide, by decide⟩, by decide⟩

/-- IDLE, and a state that is reached by one input and one step and is not IDLE. -/
theorem witness_ExpectedLengthLegal :
    Reachable State.reset ∧ State.reset.rxState = .idle ∧
      ∃ s, Reachable s ∧ s.rxState ≠ .idle :=
  ⟨.reset, rfl, _, .step _ _ (.input _ (.command [0x20#8, 0xFF#8, 0xFF#8]) .reset) rfl, by decide⟩

/-- Each of the transitions. -/
theorem witness_ReceiverTransitions :
    runs (exec (.rxStart 0#16) heldS2) = true ∧ runs (exec .rxAbort heldS2) = true ∧
      (after (exec (.rxByte 0xF1#8) (receiving 2#16 5#18 true (s3.take 4)))).rxState = .complete ∧
      runs (exec .rxStatus partway) = true := by decide

theorem witness_ReceivedBytesKept :
    runs (exec (.rxByte 0x00#8) heldS3) = true ∧ (∀ q, Instr.rxByte 0x00#8 ≠ .rxStart q) ∧
      Instr.rxByte 0x00#8 ≠ .rxAbort ∧ heldS3.rxExc = true :=
  ⟨by decide, by simp, by simp, rfl⟩

theorem witness_OnlyCrcCommandsWriteAccumulator :
    runs (exec .rxStatus partway) = true ∧ Instr.rxStatus ≠ .crcInit ∧
      (∀ b, Instr.rxStatus ≠ .crcFeed b) ∧ (∀ bs, Instr.rxStatus ≠ .crcSeq bs) ∧
      runs (exec (.crcFeed 1#8) partway) = true :=
  ⟨by decide, by simp, by simp, by simp, by decide⟩

theorem witness_SideEffectFreeCommands :
    runs (exec .crcRead partway) = true ∧ runs (exec (.crcCalc [1#8]) partway) = true ∧
      runs (exec (.reqBuild 1#8 3#8 0#16 2#16) partway) = true ∧
      runs (exec .rxStatus partway) = true ∧ runs (exec .rxValidate heldS2) = true ∧
      runs (exec (.decRegs 2#16 s2Payload) partway) = true ∧
      runs (exec (.decCoils 8#16 s2Payload) partway) = true := by decide +kernel

theorem witness_OneResultPerCommand :
    runs (exec (.rxByte 0x11#8) partway) = true ∧ (Instr.rxByte 0x11#8).isCommand = true := by decide

theorem witness_OnlyListedStops :
    State.reset.Inv ∧ exec (.decRegs 0#16 []) State.reset = .fault .payloadTooShort ∧
      exec (.decCoils 1#16 [0#8, 0#8, 0#8]) State.reset = .fault .payloadTooShort ∧
      exec (.reqBuild 1#8 5#8 0#16 1#16) State.reset = .refused .unsupportedFunctionCode ∧
      exec .rxValidate State.reset = .refused .validateBeforeComplete :=
  ⟨reset_inv, rfl, rfl, rfl, rfl⟩

/-- Two exchanges left in different states; the commands run on, fault, and are refused. -/
theorem witness_StartForgetsEarlierExchange :
    heldS3.crcAcc = partway.crcAcc ∧ heldS3.rxBuf ≠ partway.rxBuf ∧
      runs (execAll [.rxStart 2#16, .rxChunk s2, .rxStatus] heldS3) = true ∧
      execAll [.rxStart 2#16, .decRegs 1#16 []] heldS3 = .fault .payloadTooShort ∧
      execAll [.rxStart 2#16, .rxValidate] heldS3 = .refused .validateBeforeComplete :=
  ⟨rfl, by decide, by decide, rfl, rfl⟩

theorem witness_CodecIgnoresAccumulator :
    (∀ i ∈ [Instr.rxStart 2#16, .rxChunk s2, .rxValidate],
      i ≠ .crcRead ∧ i ≠ .crcInit ∧ (∀ b, i ≠ .crcFeed b) ∧ ∀ bs, i ≠ .crcSeq bs) ∧
      runs (execAll [.rxStart 2#16, .rxChunk s2, .rxValidate] partway) = true :=
  ⟨by simp, by decide +kernel⟩

theorem witness_ResultLayouts :
    (131075 : Nat) ≤ 131075 ∧ s2Payload.length < 2 ^ 32 ∧
      [0x0011#16, 0x0022#16][1]? = some 0x0022#16 ∧ [true, false][1]? = some false := by decide

/-- A line and a program after it. -/
theorem witness_AssemblyExamplesRead :
    assembleLine "RX.START 2   ; 20 00 02".toList = some [.rxStart 2#16] ∧
      assemble ["RX.STATUS".toList, [], "  ; -> (1, 0, 0, 9, 2)".toList] = some [.rxStatus] := by
  decide

end Sys2Proof.Tests
end

section
/-! PROOF. The host's side of an instruction (R11, log entries 1 and 4): what it leaves of the pending
inputs and of the results already handed out, and how many results a command adds. -/

namespace Sys2Proof.Machine

variable {s t : State} {i : Instr}

/-- The two-run law read on one run: an instruction agrees with itself. -/
theorem exec_keeps_host_side (h : exec i s = .next t) :
    t.inputs = s.inputs ∧ s.results <+: t.results := by
  have hself := exec_agree i (SameReceiver.refl s) (.inl rfl)
  rw [h] at hself
  obtain ⟨-, ⟨rs, hres, -⟩, hin, -⟩ := hself
  exact ⟨hin, rs, hres.symm⟩

/-- One received byte hands out its `taken` bit, whether it is absorbed or discarded (R83, R86). -/
theorem receiveByte_results (b : Byte) (s : State) :
    ∃ r, (receiveByte b s).results = s.results ++ [r] := by
  by_cases h : s.rxState = .receiving
  · rw [receiveByte_of_receiving h]; exact ⟨_, rfl⟩
  · rw [receiveByte_of_not_receiving h]; exact ⟨_, rfl⟩

theorem not_isCommand_of_isResponse (h : Instr.isResponse i = true) : i.isCommand = false := by
  cases i with
  | wireRspNormal | wireRspException => rfl
  | _ => cases h

/-- A command that completes hands out one result; only the pseudo-instructions and the response frames
can hand out another number of them (R10, R63). -/
theorem exec_command_results (h : exec i s = .next t) (hc : i.isCommand = true) :
    ∃ r, t.results = s.results ++ [r] := by
  rcases exec_next_cases h with ⟨-, r, rfl, -⟩ | ⟨-, rfl⟩ | ⟨b, -, rfl⟩ | ⟨bs, rfl, -⟩ | ⟨q, -, rfl⟩ |
    ⟨-, rfl⟩ | ⟨b, -, rfl⟩ | ⟨bs, rfl, -⟩ | ⟨hresp, -⟩
  · exact ⟨r, rfl⟩
  · exact ⟨.none, rfl⟩
  · exact ⟨.none, rfl⟩
  · cases hc
  · exact ⟨.none, rfl⟩
  · exact ⟨.none, rfl⟩
  · exact receiveByte_results b s
  · cases hc
  · rw [not_isCommand_of_isResponse hresp] at hc; cases hc

/-- Settles O53: the frame of an instruction and the one result of a command. -/
theorem oneResultPerCommand : Obligations.OneResultPerCommand := by
  intro i s t h
  obtain ⟨hin, hpre⟩ := exec_keeps_host_side h
  refine ⟨hin, hpre, fun hc => ?_⟩
  obtain ⟨r, hr⟩ := exec_command_results h hc
  rw [hr, List.length_append, List.length_singleton]

end Sys2Proof.Machine
end

section
/-! PROOF. The state of the block: what one step is (R13, R37), what an instruction does to the receiver and
to `CRC_ACC` (R15 to R20), and the receiver invariants along every run (R21). -/

namespace Sys2Proof.Machine

variable {s t : State} {i : Instr}

/-! ### One step -/

theorem step_of_no_input (h : s.inputs = []) : step s = .next s := by
  simp [step, fetch, h]

theorem step_of_reset {rest : List HostInput} (h : s.inputs = .reset :: rest) :
    step s = .next (resetRegisters { s with inputs := rest }) := by
  simp [step, fetch, h]

theorem step_of_command {bs : List Byte} {rest : List HostInput} (h : s.inputs = .command bs :: rest)
    (hc : commandOf bs = .ok i) : step s = exec i { s with inputs := rest } := by
  simp [step, fetch, h, hc]

theorem step_of_no_command {bs : List Byte} {rest : List HostInput} {r : Refusal}
    (h : s.inputs = .command bs :: rest) (hc : commandOf bs = .error r) : step s = .refused r := by
  simp [step, fetch, h, hc]

theorem commandOf_of_decode {bs : List Byte} (h : decode bs = .ok (i, [])) : commandOf bs = .ok i := by
  simp [commandOf, h]

/-- Everything a step that answers a next state can have done. -/
theorem step_next_cases (h : step s = .next t) :
    (s.inputs = [] ∧ t = s) ∨
    (∃ rest, s.inputs = .reset :: rest ∧ t = resetRegisters { s with inputs := rest }) ∨
    ∃ bs rest i, s.inputs = .command bs :: rest ∧ commandOf bs = .ok i ∧
      exec i { s with inputs := rest } = .next t := by
  cases hin : s.inputs with
  | nil => rw [step_of_no_input hin] at h; cases h; exact .inl ⟨rfl, rfl⟩
  | cons x rest =>
    cases x with
    | reset => rw [step_of_reset hin] at h; cases h; exact .inr (.inl ⟨rest, rfl, rfl⟩)
    | command bs =>
      cases hc : commandOf bs with
      | ok i => rw [step_of_command hin hc] at h; exact .inr (.inr ⟨bs, rest, i, rfl, hc, h⟩)
      | error r => rw [step_of_no_command hin hc] at h; cases h

/-- Settles O3: the fetch yields the decoded command, or idles when nothing is pending. -/
theorem stepRunsDecodedCommand : Obligations.StepRunsDecodedCommand :=
  ⟨fun _ _ _ _ hin hdec => step_of_command hin (commandOf_of_decode hdec),
    fun _ hin => step_of_no_input hin⟩

/-! ### What received bytes do to the receiver -/

section ReceiveBytes

variable (s) (bs : List Byte)

/-- Received bytes move the receiver only from RECEIVING to COMPLETE, with the frame as long as expected
(R16, R85, R86). -/
theorem receiveBytes_rxState :
    (receiveBytes bs s).rxState = s.rxState ∨
      (s.rxState = .receiving ∧ (receiveBytes bs s).rxState = .complete ∧
        (receiveBytes bs s).rxBuf.length = (receiveBytes bs s).rxExpect.toNat) := by
  by_cases hs : s.rxState = .receiving
  · obtain ⟨_, -, -, -, -, ⟨hr, -⟩ | hc⟩ := receiveBytes_of_receiving (bs := bs) hs
    · exact .inl (hr.trans hs.symm)
    · exact .inr ⟨hs, hc⟩
  · rw [receiveBytes_of_not_receiving hs]
    exact .inl rfl

/-- Bytes in the buffer stay in their places (R20). -/
theorem rxBuf_prefix_receiveBytes : s.rxBuf <+: (receiveBytes bs s).rxBuf := by
  by_cases hs : s.rxState = .receiving
  · obtain ⟨k, -, hbuf, -⟩ := receiveBytes_of_receiving (bs := bs) hs
    exact ⟨bs.take k, hbuf.symm⟩
  · simp only [receiveBytes_of_not_receiving hs, List.prefix_rfl]

/-- A set latch stays set (R19). -/
theorem receiveBytes_rxExc_of_set (he : s.rxExc = true) : (receiveBytes bs s).rxExc = true := by
  by_cases hs : s.rxState = .receiving
  · obtain ⟨_, -, -, -, hexc, -⟩ := receiveBytes_of_receiving (bs := bs) hs
    exact hexc he
  · rw [receiveBytes_of_not_receiving hs]
    exact he

end ReceiveBytes

/-! ### What an instruction does to the receiver -/

/-- The bytes an instruction delivers to the receiver: a received byte, a chunk, or a response frame. -/
def receivedBytes (i : Instr) : List Byte :=
  match i with
  | .rxByte b => [b]
  | .rxChunk bs => bs
  | .wireRspNormal _ _ _ _ _ => encode i
  | .wireRspException _ _ _ _ => encode i
  | _ => []

theorem receivedBytes_of_isQuiet (h : Instr.isQuiet i = true) : receivedBytes i = [] := by
  cases i with
  | rxByte | rxChunk | wireRspNormal | wireRspException => cases h
  | _ => rfl

theorem receivedBytes_of_isResponse (h : Instr.isResponse i = true) : receivedBytes i = encode i := by
  cases i with
  | wireRspNormal | wireRspException => rfl
  | _ => cases h

/-- The instructions that deliver bytes at all. -/
theorem receives_of_receivedBytes_ne_nil (h : receivedBytes i ≠ []) :
    (∃ b, i = .rxByte b) ∨ (∃ bs, i = .rxChunk bs) ∨
      (∃ a b c d e, i = .wireRspNormal a b c d e) ∨ ∃ a b c d, i = .wireRspException a b c d := by
  cases i with
  | rxByte b => exact .inl ⟨b, rfl⟩
  | rxChunk bs => exact .inr (.inl ⟨bs, rfl⟩)
  | wireRspNormal a b c d e => exact .inr (.inr (.inl ⟨a, b, c, d, e, rfl⟩))
  | wireRspException a b c d => exact .inr (.inr (.inr ⟨a, b, c, d, rfl⟩))
  | _ => exact absurd rfl h

/-- The key law: but for RX.START and RX.ABORT, an instruction does to the receiver exactly what the
bytes it delivers do. -/
theorem exec_sameReceiver_receiveBytes (h : exec i s = .next t) (hs : ∀ q, i ≠ .rxStart q)
    (ha : i ≠ .rxAbort) : (receiveBytes (receivedBytes i) s).SameReceiver t := by
  rcases exec_next_cases h with ⟨hq, r, rfl, -⟩ | ⟨rfl, rfl⟩ | ⟨b, rfl, rfl⟩ | ⟨bs, rfl, rfl⟩ |
    ⟨q, rfl, -⟩ | ⟨rfl, -⟩ | ⟨b, rfl, rfl⟩ | ⟨bs, rfl, rfl⟩ | ⟨hresp, hend⟩
  · rw [receivedBytes_of_isQuiet hq]
    exact SameReceiver.refl s
  · exact SameReceiver.refl s
  · exact SameReceiver.refl s
  · rw [feedBytes_eq]
    exact SameReceiver.refl s
  · exact absurd rfl (hs q)
  · exact absurd rfl ha
  · exact SameReceiver.refl _
  · exact SameReceiver.refl _
  · rw [receivedBytes_of_isResponse hresp]
    rcases hend with ⟨rfl, -⟩ | ⟨-, rfl⟩
    · exact SameReceiver.refl _
    · exact SameReceiver.refl (receiveBytes (encode i) s)

/-- The receiver after an instruction: armed, cleared, or as the delivered bytes leave it. -/
theorem exec_receiver_cases (h : exec i s = .next t) :
    (∃ q, i = .rxStart q ∧ (armReceiver q s).SameReceiver t) ∨
    (i = .rxAbort ∧ (clearReceiver s).SameReceiver t) ∨
    ((∀ q, i ≠ .rxStart q) ∧ i ≠ .rxAbort ∧ (receiveBytes (receivedBytes i) s).SameReceiver t) := by
  by_cases hs : ∃ q, i = .rxStart q
  · obtain ⟨q, rfl⟩ := hs
    rw [show exec (.rxStart q) s = execRxStart q s from rfl, execRxStart_eq] at h
    cases h
    exact .inl ⟨q, rfl, SameReceiver.refl (armReceiver q s)⟩
  · have hs' : ∀ q, i ≠ .rxStart q := fun q hq => hs ⟨q, hq⟩
    by_cases ha : i = .rxAbort
    · subst ha
      cases h
      exact .inr (.inl ⟨rfl, SameReceiver.refl (clearReceiver s)⟩)
    · exact .inr (.inr ⟨hs', ha, exec_sameReceiver_receiveBytes h hs' ha⟩)

/-- Settles O49: outside RX.START and RX.ABORT only delivered bytes move the receiver. -/
theorem receiverTransitions : Obligations.ReceiverTransitions := by
  intro i s t h
  rcases exec_receiver_cases h with ⟨q, hi, hst, -⟩ | ⟨hi, hst, -⟩ | ⟨hs, ha, hst, -, hexp, -, hbuf⟩
  · exact .inl ⟨q, hi, hst⟩
  · exact .inr (.inl ⟨hi, hst⟩)
  · refine .inr (.inr ⟨hs, ha, ?_⟩)
    rw [hst, hexp, hbuf]
    by_cases hnil : receivedBytes i = []
    · rw [hnil]
      exact .inl rfl
    · rcases receiveBytes_rxState s (receivedBytes i) with hsame | ⟨hr, hc, hl⟩
      · exact .inl hsame
      · exact .inr ⟨hr, hc, hl, receives_of_receivedBytes_ne_nil hnil⟩

/-- Settles O50: delivered bytes only add to the buffer and to the latch. -/
theorem receivedBytesKept : Obligations.ReceivedBytesKept := by
  intro i s t h hs ha
  obtain ⟨-, hqty, -, hexc, hbuf⟩ := exec_sameReceiver_receiveBytes h hs ha
  rw [hqty, hexc, hbuf]
  exact ⟨rxBuf_prefix_receiveBytes s _, receiveBytes_rxExc_of_set s _, receiveBytes_rxQty⟩

/-! ### What an instruction does to `CRC_ACC` -/

theorem exec_keeps_crcAcc (h : exec i s = .next t) (hinit : i ≠ .crcInit) (hfeed : ∀ b, i ≠ .crcFeed b)
    (hseq : ∀ bs, i ≠ .crcSeq bs) : t.crcAcc = s.crcAcc := by
  rcases exec_next_cases h with ⟨-, r, rfl, -⟩ | ⟨hi, -⟩ | ⟨b, hi, -⟩ | ⟨bs, hi, -⟩ |
    ⟨q, -, rfl⟩ | ⟨-, rfl⟩ | ⟨b, -, rfl⟩ | ⟨bs, -, rfl⟩ | ⟨-, ⟨rfl, -⟩ | ⟨-, rfl⟩⟩
  · rfl
  · exact absurd hi hinit
  · exact absurd hi (hfeed b)
  · exact absurd hi (hseq bs)
  · rfl
  · rfl
  · exact receiveByte_crcAcc
  · exact receiveBytes_crcAcc
  · exact receiveBytes_crcAcc
  · exact receiveBytes_crcAcc

/-- Settles O51: the three writers of `CRC_ACC` deliver no bytes to the receiver. -/
theorem onlyCrcCommandsWriteAccumulator : Obligations.OnlyCrcCommandsWriteAccumulator := by
  refine fun i s t h => ⟨exec_keeps_crcAcc h, ?_⟩
  rintro (rfl | ⟨b, rfl⟩ | ⟨bs, rfl⟩)
  · exact exec_sameReceiver_receiveBytes h nofun nofun
  · exact exec_sameReceiver_receiveBytes h nofun nofun
  · exact exec_sameReceiver_receiveBytes h nofun nofun

/-! ### The receiver invariants along a run (R21) -/

theorem exec_inv (hi : s.Inv) (h : exec i s = .next t) : t.Inv := by
  rcases exec_receiver_cases h with ⟨q, -, hst⟩ | ⟨-, hst⟩ | ⟨-, -, hst⟩
  · exact Inv.congr (armReceiver_inv q s) hst
  · exact Inv.congr (clearReceiver_inv s) hst
  · exact Inv.congr (receiveBytes_inv hi) hst

/-- R21 speaks of no pending input. -/
theorem Inv.withInputs (hi : s.Inv) (ins : List HostInput) : State.Inv { s with inputs := ins } :=
  Inv.congr hi (SameReceiver.refl s)

/-- Settles O46: an idle step, a reset and every instruction keep R21. -/
theorem stepKeepsReceiverInvariants : Obligations.StepKeepsReceiverInvariants := by
  intro s t hi h
  rcases step_next_cases h with ⟨-, rfl⟩ | ⟨rest, -, rfl⟩ | ⟨_, rest, _, -, -, hex⟩
  · exact hi
  · exact resetRegisters_inv _
  · exact exec_inv (Inv.withInputs hi rest) hex

/-- Settles O47: reset leaves the receiver cleared. -/
theorem resetMeetsReceiverInvariants : Obligations.ResetMeetsReceiverInvariants :=
  resetRegisters_inv State.reset

theorem reachable_inv (h : Reachable s) : s.Inv := by
  induction h with
  | reset => exact resetMeetsReceiverInvariants
  | input _ _ _ ih => exact Inv.withInputs ih _
  | step _ _ _ hstep ih => exact stepKeepsReceiverInvariants _ _ ih hstep

/-- A tracked expected length is at most that of the largest quantity, `RX_CAP` (R18, R52). -/
theorem Tracks.le_rxCap (h : s.Tracks) : s.rxExpect.toNat ≤ Config.rxCap := by
  have hq := s.rxQty.isLt
  rw [Tracks.expect h, Config.rxCap]
  split <;> omega

/-- Outside IDLE, R21 bounds the buffer by `RX_EXPECT` and ties `RX_EXPECT` to the frame (R18, R20). -/
theorem Inv.tracks_of_not_idle (hi : s.Inv) (hs : s.rxState ≠ .idle) :
    s.rxBuf.length ≤ s.rxExpect.toNat ∧ s.Tracks := by
  cases h : s.rxState with
  | idle => exact absurd h hs
  | receiving => exact ((inv_of_receiving h).1 hi).imp_left Nat.le_of_lt
  | complete => exact ((inv_of_complete h).1 hi).imp_left Nat.le_of_eq

/-- Settles O48: the legal values follow from R21, which every reachable state meets. -/
theorem expectedLengthLegal : Obligations.ExpectedLengthLegal := by
  intro s h
  have hi := reachable_inv h
  by_cases hs : s.rxState = .idle
  · obtain ⟨hbuf, -, hexp, -⟩ := (inv_of_idle hs).1 hi
    simp [hs, hbuf, hexp]
  · obtain ⟨hlen, htr⟩ := Inv.tracks_of_not_idle hi hs
    have h5 := Tracks.five_le htr
    have hcap := Tracks.le_rxCap htr
    have hne : s.rxExpect ≠ 0#18 := fun h0 => by simp [h0] at h5
    exact ⟨iff_of_false hs hne, fun _ => ⟨h5, hcap⟩, hlen, hlen.trans hcap⟩

end Sys2Proof.Machine
end

section
/-! PROOF. Memory and order (spec/20_memory.md): commands in issue order (R37), the commands without side
effects (R35), and the byte orders of a whole exchange: its trailer (R29), registers (R30), coils (R31). -/

namespace Sys2Proof.Machine

variable {s t : State} {i : Instr}

/-! ### A command on the command interface -/

/-- What the host writes for a command is read back as that command (R54, R55). -/
theorem decode_encode_append (rest : List Byte) (hc : i.isCommand = true) (hw : i.wellFormed = true) :
    decode (encode i ++ rest) = .ok (i, rest) := by
  cases i with
  | crcInit => exact decode_code_cons .crcInit rest
  | crcFeed b => exact decode_code_cons .crcFeed (b :: rest)
  | crcRead => exact decode_code_cons .crcRead rest
  | crcCalc bs =>
    have hfits : bs.length < 4294967296 := of_decide_eq_true hw
    simp [encode, decode_code_cons, decodeOperands, takeBytes_bytesField hfits]
  | reqBuild slave fc addr qty => simp [encode, decode_code_cons, decodeOperands]
  | rxStart q => simp [encode, decode_code_cons, decodeOperands]
  | rxByte b => exact decode_code_cons .rxByte (b :: rest)
  | rxAbort => exact decode_code_cons .rxAbort rest
  | rxStatus => exact decode_code_cons .rxStatus rest
  | rxValidate => exact decode_code_cons .rxValidate rest
  | decRegs q p =>
    have hfits : p.length < 4294967296 := of_decide_eq_true hw
    simp [encode, decode_code_cons, decodeOperands, takeBytes_bytesField hfits]
  | decCoils q p =>
    have hfits : p.length < 4294967296 := of_decide_eq_true hw
    simp [encode, decode_code_cons, decodeOperands, takeBytes_bytesField hfits]
  | rxChunk | crcSeq | wireReq01 | wireReq02 | wireReq03 | wireReq04 | wireRspNormal
  | wireRspException => cases hc

theorem commandOf_encode (hc : i.isCommand = true) (hw : i.wellFormed = true) :
    commandOf (encode i) = .ok i :=
  commandOf_of_decode (by simpa using decode_encode_append [] hc hw)

/-! ### Commands in issue order (R37) -/

/-- An outcome with other inputs pending in its next state. -/
def outcomeWithInputs (ins : List HostInput) :
    Host.Outcome State Fault Refusal → Host.Outcome State Fault Refusal
  | .next t => .next { t with inputs := ins }
  | .fault r => .fault r
  | .refused r => .refused r

/-- Two runs from states that differ in the pending inputs alone, if they agree, end the same but for
those inputs. -/
theorem Agree.eq_outcomeWithInputs {ins : List HostInput} {o o' : Host.Outcome State Fault Refusal}
    (h : Agree s { s with inputs := ins } o o') : o' = outcomeWithInputs ins o := by
  match o, o', h with
  | .next t, .next t', ⟨hrx, ⟨rs, hres, hres'⟩, _, hin', hcrc⟩ =>
    have hcrc' : t'.crcAcc = t.crcAcc := by
      rcases hcrc with ⟨h, h'⟩ | h
      · exact h'.trans h.symm
      · exact h.symm
    exact congrArg _ (State.ext_fields (s := { t with inputs := ins }) hrx hcrc' hin'
      (hres'.trans hres.symm))
  | .fault _, .fault _, rfl => rfl
  | .refused _, .refused _, rfl => rfl

/-- An instruction carries the pending inputs along unread. -/
theorem exec_withInputs (i : Instr) (s : State) (ins : List HostInput) :
    exec i { s with inputs := ins } = outcomeWithInputs ins (exec i s) :=
  Agree.eq_outcomeWithInputs (exec_agree i (SameReceiver.refl s) (.inl rfl))

/-- One step a command: with well-formed commands pending in front, that many steps apply their meanings
in order. -/
theorem stepN_commands (is : List Instr) (rest : List HostInput)
    (h : ∀ i ∈ is, i.isCommand = true ∧ i.wellFormed = true) (s : State) :
    stepN is.length { s with inputs := is.map (fun i => .command (encode i)) ++ rest } =
      execAll is { s with inputs := rest } := by
  induction is generalizing s with
  | nil => rfl
  | cons i is ih =>
    obtain ⟨⟨hc, hw⟩, his⟩ := List.forall_mem_cons.1 h
    simp only [List.length_cons, List.map_cons, List.cons_append, stepN, execAll]
    rw [step_of_command rfl (commandOf_encode hc hw), exec_withInputs i s rest,
      exec_withInputs i s]
    cases exec i s with
    | next t => exact ih his t
    | fault r => rfl
    | refused r => rfl

/-- A pseudo-instruction is its expansion, whatever follows it (R63). -/
theorem execAll_expansion_append (i : Instr) (js : List Instr) (s : State) :
    execAll (expansion i ++ js) s = execAll (i :: js) s := by
  cases i with
  | rxChunk bs => exact execAll_append (execAll_rxBytes bs s)
  | crcSeq bs => exact execAll_append (execAll_crcFeeds bs _)
  | _ => rfl

theorem execAll_flatMap_expansion (is : List Instr) (s : State) :
    execAll (is.flatMap expansion) s = execAll is s := by
  induction is generalizing s with
  | nil => rfl
  | cons i is ih =>
    rw [List.flatMap_cons, execAll_expansion_append, execAll, execAll]
    simp only [ih]

/-- Settles O4: a step takes the oldest command and runs it, and expanding the pseudo-instructions changes
no outcome. -/
theorem issuedCommandsRunInOrder : Obligations.IssuedCommandsRunInOrder := by
  intro is s rest h
  rw [← execAll_flatMap_expansion]
  exact stepN_commands (is.flatMap expansion) rest h s

/-! ### Commands without side effects (R35) -/

theorem not_isQuiet_of_isResponse (h : Instr.isResponse i = true) : Instr.isQuiet i = false := by
  cases i with
  | wireRspNormal | wireRspException => rfl
  | _ => cases h

theorem exec_of_isQuiet (hq : Instr.isQuiet i = true) (h : exec i s = .next t) : ∃ r, t = emit r s := by
  rcases exec_next_cases h with ⟨-, r, ht, -⟩ | ⟨rfl, -⟩ | ⟨b, rfl, -⟩ | ⟨bs, rfl, -⟩ | ⟨q, rfl, -⟩ |
    ⟨rfl, -⟩ | ⟨b, rfl, -⟩ | ⟨bs, rfl, -⟩ | ⟨hresp, -⟩
  · exact ⟨r, ht⟩
  · cases hq
  · cases hq
  · cases hq
  · cases hq
  · cases hq
  · cases hq
  · cases hq
  · rw [not_isQuiet_of_isResponse hresp] at hq; cases hq

/-- An instruction that writes no register hands out a result, and run again hands out the same one. -/
theorem exec_repeat_of_isQuiet (hq : Instr.isQuiet i = true) (h : exec i s = .next t) :
    ∃ r, t = emit r s ∧ exec i t = .next (emit r t) := by
  obtain ⟨r, rfl⟩ := exec_of_isQuiet hq h
  have hagree := exec_agree i (s' := emit r s) (SameReceiver.refl s) (.inl rfl)
  rw [h] at hagree
  cases hu : exec i (emit r s) with
  | next u =>
    rw [hu] at hagree
    obtain ⟨r', rfl⟩ := exec_of_isQuiet hq hu
    obtain ⟨-, ⟨rs, hres, hres'⟩, -⟩ := hagree
    have hr : [r] = rs := List.append_cancel_left hres
    have hr' : [r'] = rs := List.append_cancel_left hres'
    obtain rfl : r' = r := List.singleton_injective (hr'.trans hr.symm)
    exact ⟨r', rfl, rfl⟩
  | fault => rw [hu] at hagree; cases hagree
  | refused => rw [hu] at hagree; cases hagree

/-- Settles O52: the seven commands only hand out a result, and nothing they read has changed the second
time. -/
theorem sideEffectFreeCommands : Obligations.SideEffectFreeCommands := by
  intro i s t h hi
  have hq : Instr.isQuiet i = true := by
    rcases hi with rfl | ⟨_, rfl⟩ | ⟨_, _, _, _, rfl⟩ | rfl | rfl | ⟨_, _, rfl⟩ | ⟨_, _, rfl⟩ <;> rfl
  obtain ⟨r, rfl, hagain⟩ := exec_repeat_of_isQuiet hq h
  exact ⟨⟨rfl, SameReceiver.refl s⟩, r, _, rfl, hagain, rfl, rfl, SameReceiver.refl s⟩

/-! ### One whole exchange -/

theorem length_withTrailer (f : List Byte) : (withTrailer f).length = f.length + 2 := by
  simp [withTrailer]

/-- A normal frame with its own trailer is judged OK, and its payload is the frame without the trailer
(R29, R91, R94). -/
theorem judge_withTrailer (f : List Byte) : judge false (withTrailer f) = .payload f := by
  have hlo : byteAt (withTrailer f) f.length = lo (crc16 f) := byteAt_append_right (i := 0)
  have hhi : byteAt (withTrailer f) (f.length + 1) = hi (crc16 f) := byteAt_append_right (i := 1)
  have htake : (withTrailer f).take f.length = f := List.take_left
  simp [judge, length_withTrailer, hlo, hhi, htake]

/-- From a state just armed, a normal frame of the expected length is held whole and completes
(R83 to R85, R87). -/
theorem receiveBytes_normal_frame {f : List Byte} (hr : s.rxState = .receiving) (hi : s.Inv)
    (hb : s.rxBuf = []) (hl : f.length = 5 + 2 * s.rxQty.toNat)
    (hbit : (byteAt f 1).getLsbD 7 = false) :
    (receiveBytes f s).rxState = .complete ∧ (receiveBytes f s).rxBuf = f ∧
      (receiveBytes f s).rxExc = false := by
  obtain ⟨hbuf, hend⟩ := receiveBytes_armed (bs := f) hr hi hb
  have hne : (receiveBytes f s).rxState ≠ .idle := by
    rcases hend with ⟨-, h⟩ | ⟨-, h⟩ <;> rw [h] <;> nofun
  obtain ⟨-, htr⟩ := Inv.tracks_of_not_idle (receiveBytes_inv hi) hne
  have h5 := Tracks.five_le htr
  obtain ⟨hexc, -, hnormal⟩ := htr
  have hclear : (receiveBytes f s).rxExc = false := by
    rw [← Bool.not_eq_true, hexc, hbuf, byteAt_take (by omega), hbit]
    simp
  have hexp := hnormal hclear
  rw [receiveBytes_rxQty, ← hl] at hexp
  rw [hexp, List.take_length] at hbuf
  rcases hend with ⟨hlt, -⟩ | ⟨-, hc⟩
  · omega
  · exact ⟨hc, hbuf, hclear⟩

theorem exceptionBit_of_admitted {fc : Byte} (h : admittedFunctionCode fc = true) :
    fc.getLsbD 7 = false := by
  revert fc; decide

/-- Arming, delivering a normal frame of the block's length with its own trailer, and judging it hands out
the frame's body as the payload (R82, R87, R91). -/
theorem execAll_deliver (u : State) {q : U16} {body : List Byte} (hl : body.length = 3 + 2 * q.toNat)
    (hbit : (byteAt body 1).getLsbD 7 = false) :
    execAll [.rxStart q, .rxChunk (withTrailer body), .rxValidate] u =
      .next (emit (.payload body)
        (receiveBytes (withTrailer body) (emit .none (armReceiver q u)))) := by
  have hstart : exec (.rxStart q) u = .next (emit .none (armReceiver q u)) := execRxStart_eq q
  have harmed : (emit .none (armReceiver q u)).Inv :=
    Inv.congr (armReceiver_inv q u) (SameReceiver.refl (armReceiver q u))
  have hbit' : (byteAt (withTrailer body) 1).getLsbD 7 = false :=
    (congrArg (·.getLsbD 7) (byteAt_append_left (by omega))).trans hbit
  have hlen : (withTrailer body).length = 5 + 2 * q.toNat := by rw [length_withTrailer, hl]; omega
  obtain ⟨hc, hbuf, hexc⟩ := receiveBytes_normal_frame rfl harmed rfl hlen hbit'
  have hjudged := validate_of_long hc (by rw [hbuf, hlen]; omega)
  rw [hbuf, hexc, judge_withTrailer] at hjudged
  rw [execAll_cons_next hstart, execAll_cons_next rfl]
  exact execAll_cons_next hjudged

/-- The shape of both round trips: an exchange whose response has the block's length and carries its own
trailer ends with the response's body as the payload. -/
theorem execAll_exchange_payload (s : State) (slave fc : Byte) (addr q : U16) {body : List Byte}
    (hfc : admittedFunctionCode fc = true) (hl : body.length = 3 + 2 * q.toNat)
    (h1 : byteAt body 1 = fc) :
    ∃ t, execAll (exchange slave fc addr q (withTrailer body)) s = .next t ∧
      t.results.getLast? = some (.payload body) := by
  have hbuild : exec (.reqBuild slave fc addr q) s = .next _ := buildRequest_admitted hfc
  have hbit : (byteAt body 1).getLsbD 7 = false := h1 ▸ exceptionBit_of_admitted hfc
  exact ⟨_, (execAll_cons_next hbuild).trans (execAll_deliver _ hl hbit), List.getLast?_concat⟩

/-! ### The values in the payload (R30, R31, R102, R103) -/

theorem registerAt_body (slave fc count : Byte) (data : List Byte) (k : Nat) :
    registerAt ([slave, fc, count] ++ data) k =
      be16 (byteAt data (2 * k)) (byteAt data (2 * k + 1)) := by
  have hhi := byteAt_append_right (f := [slave, fc, count]) (g := data) (i := 2 * k)
  have hlo := byteAt_append_right (f := [slave, fc, count]) (g := data) (i := 2 * k + 1)
  rw [registerAt, ← hhi, ← hlo, show 4 + 2 * k = 3 + (2 * k + 1) by omega]
  rfl

theorem coilAt_body (slave fc count : Byte) (data : List Byte) (k : Nat) :
    coilAt ([slave, fc, count] ++ data) k = (byteAt data (k / 8)).getLsbD (k % 8) :=
  congrArg (·.getLsbD (k % 8)) (byteAt_append_right (f := [slave, fc, count]))

theorem length_flatMap_u16Bytes (vs : List U16) : (vs.flatMap u16Bytes).length = 2 * vs.length := by
  simp [u16Bytes, Nat.mul_comm]

/-- Values sent big-endian, two bytes each, are read back in order (R30). -/
theorem be16_pairs_flatMap_u16Bytes (vs : List U16) :
    (List.range vs.length).map (fun k =>
      be16 (byteAt (vs.flatMap u16Bytes) (2 * k)) (byteAt (vs.flatMap u16Bytes) (2 * k + 1))) = vs := by
  induction vs with
  | nil => rfl
  | cons v vs ih =>
    rw [List.length_cons, List.range_succ_eq_map, List.map_cons, List.map_map]
    exact congrArg₂ List.cons (be16_hi_lo v) ih

theorem map_registerAt_body (slave fc count : Byte) (vs : List U16) :
    (List.range vs.length).map (registerAt ([slave, fc, count] ++ vs.flatMap u16Bytes)) = vs :=
  (List.map_congr_left fun _ _ => registerAt_body slave fc count _ _).trans
    (be16_pairs_flatMap_u16Bytes vs)

/-- Settles O44: the payload is the response's body, whose bytes are the values' pairs. -/
theorem registerReadRoundTrip : Obligations.RegisterReadRoundTrip := by
  intro s slave fc count addr q vs body hfc hvs hbody
  change body = [slave, fc, count] ++ vs.flatMap u16Bytes at hbody
  subst hbody
  have hadm : admittedFunctionCode fc = true := by rcases hfc with rfl | rfl <;> rfl
  have hl : ([slave, fc, count] ++ vs.flatMap u16Bytes).length = 3 + 2 * q.toNat := by
    rw [List.length_append, length_flatMap_u16Bytes, hvs]; rfl
  obtain ⟨t, hrun, hpay⟩ := execAll_exchange_payload s slave fc addr q hadm hl rfl
  refine ⟨t, _, hrun, hpay, execDecRegs_of_long hl.ge, ?_⟩
  rw [emit_results, List.getLast?_concat, ← hvs, map_registerAt_body]

/-- Settles O45: the payload is the response's body, and bit `k` of it is read from data byte `k / 8`. -/
theorem coilReadRoundTrip : Obligations.CoilReadRoundTrip := by
  rintro s slave fc count addr q data body hfc hdata rfl
  have hadm : admittedFunctionCode fc = true := by rcases hfc with rfl | rfl <;> rfl
  have hl : ([slave, fc, count] ++ data).length = 3 + 2 * q.toNat := by
    rw [List.length_append, hdata]; rfl
  have hlong : 3 + coilBytes q.toNat ≤ ([slave, fc, count] ++ data).length := by
    rw [hl, coilBytes]; omega
  obtain ⟨t, hrun, hpay⟩ := execAll_exchange_payload s slave fc addr q hadm hl rfl
  refine ⟨t, _, _, hrun, hpay, execDecCoils_of_long hlong, List.getLast?_concat, by simp, fun k hk => ?_⟩
  have hbyte : k / 8 < data.length := by omega
  refine ⟨coilAt ([slave, fc, count] ++ data) k, _, ?_, List.getElem?_eq_getElem hbyte, ?_⟩
  · rw [List.getElem?_map, List.getElem?_range hk]; rfl
  · rw [coilAt_body, byteAt_eq_getElem hbyte]

end Sys2Proof.Machine
end

section
/-! PROOF. The command interface (spec/30_encoding.md R54 to R57, R61, R63): which bytes are a command, and
which refusal the others get. -/

namespace Sys2Proof.Machine

variable {s : State} {i : Instr} {bs rest : List Byte} {b : Byte}

/-! ### The round trip of R54 and R55 -/

/-- Settles O9: each operand form reads back what the encoder wrote. -/
theorem commandsDecodeAsEncoded : Obligations.CommandsDecodeAsEncoded :=
  fun _ rest hc hw => decode_encode_append rest hc hw

/-- What the operands of an opcode are read as is a command, and the bytes read are its encoding. -/
theorem decodeOperands_some {o : Opcode} (h : decodeOperands o bs = some (i, rest)) :
    i.isCommand = true ∧ i.wellFormed = true ∧ o.code :: bs = encode i ++ rest := by
  cases o with
  | crcInit | crcRead | rxAbort | rxStatus | rxValidate =>
    cases h
    exact ⟨rfl, rfl, rfl⟩
  | crcFeed | rxByte =>
    obtain ⟨⟨b, r⟩, hb, hi⟩ := Option.map_eq_some_iff.1 h
    cases hi
    rw [takeU8_some hb]
    exact ⟨rfl, rfl, rfl⟩
  | rxStart =>
    obtain ⟨⟨q, r⟩, hq, hi⟩ := Option.map_eq_some_iff.1 h
    cases hi
    rw [takeU16_some hq]
    exact ⟨rfl, rfl, rfl⟩
  | crcCalc =>
    obtain ⟨⟨p, r⟩, hp, hi⟩ := Option.map_eq_some_iff.1 h
    cases hi
    obtain ⟨rfl, hfits⟩ := takeBytes_some hp
    exact ⟨rfl, decide_eq_true hfits, rfl⟩
  | reqBuild =>
    obtain ⟨⟨slave, r₁⟩, hslave, h⟩ := Option.bind_eq_some_iff.1 h
    obtain ⟨⟨fc, r₂⟩, hfc, h⟩ := Option.bind_eq_some_iff.1 h
    obtain ⟨⟨addr, r₃⟩, haddr, h⟩ := Option.bind_eq_some_iff.1 h
    obtain ⟨⟨qty, r₄⟩, hqty, hi⟩ := Option.map_eq_some_iff.1 h
    cases hi
    rw [takeU8_some hslave, takeU8_some hfc, takeU16_some haddr, takeU16_some hqty]
    exact ⟨rfl, rfl, rfl⟩
  | decRegs | decCoils =>
    obtain ⟨⟨q, r₁⟩, hq, h⟩ := Option.bind_eq_some_iff.1 h
    obtain ⟨⟨p, r₂⟩, hp, hi⟩ := Option.map_eq_some_iff.1 h
    cases hi
    obtain ⟨rfl, hfits⟩ := takeBytes_some hp
    rw [takeU16_some hq]
    exact ⟨rfl, decide_eq_true hfits, rfl⟩

/-- Settles O10: the opcode byte and each operand read are the bytes the encoder writes. -/
theorem decodedCommandsReencode : Obligations.DecodedCommandsReencode := by
  intro bs rest i h
  obtain ⟨o, r, rfl, hops⟩ := decode_ok h
  exact decodeOperands_some hops

/-! ### Operands by value (R54) -/

theorem u16Bytes_of_toNat {v : U16} {h l : Byte} (hv : v.toNat = h.toNat * 256 + l.toNat) :
    u16Bytes v = [h, l] := by
  obtain rfl : v = be16 h l := BitVec.eq_of_toNat_eq (hv.trans (be16_toNat h l).symm)
  rw [u16Bytes, hi_be16, lo_be16]

theorem u32Of_eq_sum (m3 m2 m1 m0 : Byte) :
    u32Of m3 m2 m1 m0 =
      m3.toNat * 2 ^ 24 + m2.toNat * 2 ^ 16 + m1.toNat * 2 ^ 8 + m0.toNat := by
  rw [u32Of]; omega

/-- A `bytes` operand whose length is given by the value of its four length bytes. -/
theorem bytesField_of_length {p : List Byte} {m3 m2 m1 m0 : Byte}
    (hp : p.length = m3.toNat * 2 ^ 24 + m2.toNat * 2 ^ 16 + m1.toNat * 2 ^ 8 + m0.toNat) :
    bytesField p = m3 :: m2 :: m1 :: m0 :: p ∧ bytesOperandFits p = true := by
  rw [← u32Of_eq_sum] at hp
  rw [bytesField, bytesOperandFits, hp, u32Bytes_u32Of]
  exact ⟨rfl, decide_eq_true (u32Of_lt m3 m2 m1 m0)⟩

/-- Settles O8: each layout is the encoding of its command. -/
theorem commandLayouts : Obligations.CommandLayouts := by
  intro rest
  refine ⟨decode_encode_append rest (i := .crcInit) rfl rfl,
    fun b => decode_encode_append rest (i := .crcFeed b) rfl rfl,
    decode_encode_append rest (i := .crcRead) rfl rfl, ?_, ?_, ?_,
    fun b => decode_encode_append rest (i := .rxByte b) rfl rfl,
    decode_encode_append rest (i := .rxAbort) rfl rfl,
    decode_encode_append rest (i := .rxStatus) rfl rfl,
    decode_encode_append rest (i := .rxValidate) rfl rfl, ?_⟩
  · intro m3 m2 m1 m0 p hp
    obtain ⟨hfield, hfits⟩ := bytesField_of_length hp
    have h := decode_encode_append rest (i := .crcCalc p) rfl hfits
    rw [encode, hfield] at h
    exact h
  · intro slave fc aH aL qH qL addr qty ha hq
    have h := decode_encode_append rest (i := .reqBuild slave fc addr qty) rfl rfl
    rw [encode, u16Bytes_of_toNat ha, u16Bytes_of_toNat hq] at h
    exact h
  · intro qH qL q hq
    have h := decode_encode_append rest (i := .rxStart q) rfl rfl
    rw [encode, u16Bytes_of_toNat hq] at h
    exact h
  · intro qH qL m3 m2 m1 m0 q p hq hp
    obtain ⟨hfield, hfits⟩ := bytesField_of_length hp
    have hregs := decode_encode_append rest (i := .decRegs q p) rfl hfits
    have hcoils := decode_encode_append rest (i := .decCoils q p) rfl hfits
    rw [encode, u16Bytes_of_toNat hq, hfield] at hregs
    rw [encode, u16Bytes_of_toNat hq, hfield] at hcoils
    exact ⟨hregs, hcoils⟩

/-! ### Bytes that are no command (R57, log entry 3) -/

/-- The opcode bytes that R57 lists as illegal are those that name no opcode of R55. -/
theorem opcodeOf_eq_none_iff (b : Byte) :
    opcodeOf b = none ↔
      b.toNat = 0x00 ∨ (0x05 ≤ b.toNat ∧ b.toNat ≤ 0x0F) ∨ (0x11 ≤ b.toNat ∧ b.toNat ≤ 0x1F) ∨
        (0x25 ≤ b.toNat ∧ b.toNat ≤ 0x2F) ∨ (0x32 ≤ b.toNat ∧ b.toNat ≤ 0xFF) := by
  revert b; decide

theorem commandOf_of_illegal_opcode (h : opcodeOf b = none) :
    commandOf (b :: bs) = .error .illegalOpcode := by
  simp [commandOf, decode, h]

/-- Bytes that start with an opcode of R55 and are not exactly one command. -/
theorem commandOf_of_not_whole {o : Opcode} (hne : ∀ i, decode (o.code :: bs) ≠ .ok (i, [])) :
    commandOf (o.code :: bs) = .error .malformedCommand := by
  rw [decode_code_cons] at hne
  rw [commandOf, decode_code_cons]
  cases hops : decodeOperands o bs with
  | none => rfl
  | some x =>
    obtain ⟨i, _ | ⟨c, r⟩⟩ := x
    · rw [hops] at hne
      exact absurd rfl (hne i)
    · rfl

theorem exists_encode_eq_code_cons (hc : i.isCommand = true) (hw : i.wellFormed = true) :
    ∃ o r, encode i = Opcode.code o :: r := by
  obtain ⟨o, r, hcons, -⟩ := decode_ok (decode_encode_append [] hc hw)
  exact ⟨o, r, (List.append_nil _).symm.trans hcons⟩

/-- No command's bytes begin another's: a first part of a command's bytes that decodes is all of them. -/
theorem eq_encode_of_prefix_of_decode {j : Instr} (hc : i.isCommand = true) (hw : i.wellFormed = true)
    (hpre : bs <+: encode i) (hd : decode bs = .ok (j, rest)) : bs = encode i := by
  obtain ⟨t, ht⟩ := hpre
  obtain ⟨hcj, hwj, hbs⟩ := decodedCommandsReencode bs rest j hd
  have hi := decode_encode_append [] hc hw
  rw [List.append_nil, ← ht, hbs, List.append_assoc, decode_encode_append _ hcj hwj] at hi
  simp only [Except.ok.injEq, Prod.mk.injEq, List.append_eq_nil_iff] at hi
  obtain ⟨-, -, rfl⟩ := hi
  rw [← ht, List.append_nil]

/-- The fetch refuses a proper first part of a command's bytes. -/
theorem commandOf_of_truncated (hc : i.isCommand = true) (hw : i.wellFormed = true)
    (hpre : bs <+: encode i) (hne : bs ≠ encode i) : commandOf bs = .error .malformedCommand := by
  cases bs with
  | nil => rfl
  | cons b bs =>
    obtain ⟨o, r, hcode⟩ := exists_encode_eq_code_cons hc hw
    obtain rfl : b = o.code := (List.cons_prefix_cons.1 (hcode ▸ hpre)).1
    exact commandOf_of_not_whole fun j hd => hne (eq_encode_of_prefix_of_decode hc hw hpre hd)

/-- The fetch refuses a command's bytes with more after them. -/
theorem commandOf_of_overlong (hc : i.isCommand = true) (hw : i.wellFormed = true) (hne : rest ≠ []) :
    commandOf (encode i ++ rest) = .error .malformedCommand := by
  rw [commandOf, decode_encode_append rest hc hw]
  cases rest with
  | nil => exact absurd rfl hne
  | cons => rfl

/-- Settles O6: a proper first part of a command does not decode, and bytes after a command are left
over by the decoder. -/
theorem malformedCommandsRefused : Obligations.MalformedCommandsRefused := by
  intro s i bs rest hc hw hin hbs
  refine step_of_no_command hin ?_
  rcases hbs with ⟨hpre, hne⟩ | ⟨⟨t, rfl⟩, hne⟩
  · exact commandOf_of_truncated hc hw hpre hne
  · refine commandOf_of_overlong hc hw fun ht => hne ?_
    rw [ht, List.append_nil]

/-! ### The encoder's frames (R41, R76, R81) -/

section RequestFrames

variable {slave fc : Byte} {addr qty : U16}

theorem exec_reqBuild (h : admittedFunctionCode fc = true) :
    exec (.reqBuild slave fc addr qty) s =
      .next (emit (.frame (withTrailer (requestFields slave fc addr qty))) s) :=
  buildRequest_admitted h

theorem exec_wireReq01 : exec (.wireReq01 slave addr qty) s =
    .next (emit (.frame (encode (.wireReq01 slave addr qty))) s) :=
  exec_reqBuild (fc := 0x01#8) rfl

theorem exec_wireReq02 : exec (.wireReq02 slave addr qty) s =
    .next (emit (.frame (encode (.wireReq02 slave addr qty))) s) :=
  exec_reqBuild (fc := 0x02#8) rfl

theorem exec_wireReq03 : exec (.wireReq03 slave addr qty) s =
    .next (emit (.frame (encode (.wireReq03 slave addr qty))) s) :=
  exec_reqBuild (fc := 0x03#8) rfl

theorem exec_wireReq04 : exec (.wireReq04 slave addr qty) s =
    .next (emit (.frame (encode (.wireReq04 slave addr qty))) s) :=
  exec_reqBuild (fc := 0x04#8) rfl

end RequestFrames

/-- Settles O21: the frame is the six fields and their trailer. -/
theorem requestFrameLayout : Obligations.RequestFrameLayout := by
  intro s slave fc addr qty hfc
  have hadm : admittedFunctionCode fc = true := by rcases hfc with rfl | rfl | rfl | rfl <;> rfl
  exact ⟨_, exec_reqBuild hadm, rfl, rfl, rfl, rfl, rfl, rfl, rfl, rfl, rfl⟩

/-- Settles O25: a request frame form is REQ.BUILD with its function code, which is admitted. -/
theorem wireRequestsAreBuilt : Obligations.WireRequestsAreBuilt :=
  fun _ _ _ _ => ⟨⟨exec_wireReq01, rfl⟩, ⟨exec_wireReq02, rfl⟩, ⟨exec_wireReq03, rfl⟩,
    ⟨exec_wireReq04, rfl⟩⟩

/-! ### Why an instruction is refused (R115) -/

theorem validate_refused {r : Refusal} (h : validate s = .refused r) :
    s.rxState ≠ .complete ∧ r = .validateBeforeComplete := by
  by_cases hc : s.rxState = .complete
  · simp only [validate, hc] at h
    split at h <;> cases h
  · rw [validate_of_not_complete hc] at h
    cases h
    exact ⟨hc, rfl⟩

/-- A response frame is judged only in COMPLETE, where judging is not refused. -/
theorem receiveFrame_ne_refused {r : Refusal} (f : List Byte) : receiveFrame f s ≠ .refused r := by
  unfold receiveFrame
  split
  · exact fun h => (validate_refused h).1 ‹_›
  · nofun

/-- The only two refusals of an instruction, each with the one command that has it (R77, R90). -/
theorem exec_refused_cases {r : Refusal} (h : exec i s = .refused r) :
    (r = .unsupportedFunctionCode ∧
      ∃ slave fc addr qty, i = .reqBuild slave fc addr qty ∧ admittedFunctionCode fc = false) ∨
    (r = .validateBeforeComplete ∧ i = .rxValidate ∧ s.rxState ≠ .complete) := by
  cases i with
  | crcInit | crcFeed | crcRead | crcCalc | rxByte | rxAbort | rxStatus | rxChunk | crcSeq => cases h
  | reqBuild slave fc addr qty =>
    change buildRequest slave fc addr qty s = _ at h
    cases hf : admittedFunctionCode fc with
    | true => rw [buildRequest_admitted hf] at h; cases h
    | false =>
      rw [buildRequest_refused hf] at h
      cases h
      exact .inl ⟨rfl, slave, fc, addr, qty, rfl, hf⟩
  | rxStart q => cases (execRxStart_eq q).symm.trans h
  | rxValidate =>
    obtain ⟨hc, hr⟩ := validate_refused h
    exact .inr ⟨hr, rfl, hc⟩
  | decRegs | decCoils =>
    simp only [exec, execDecRegs, execDecCoils] at h
    split at h <;> cases h
  | wireReq01 => cases exec_wireReq01.symm.trans h
  | wireReq02 => cases exec_wireReq02.symm.trans h
  | wireReq03 => cases exec_wireReq03.symm.trans h
  | wireReq04 => cases exec_wireReq04.symm.trans h
  | wireRspNormal | wireRspException => exact absurd h (receiveFrame_ne_refused _)

theorem exec_ne_illegalOpcode : exec i s ≠ .refused .illegalOpcode := by
  intro h
  rcases exec_refused_cases h with ⟨hr, -⟩ | ⟨hr, -⟩ <;> cases hr

/-- The refusal for an illegal opcode comes from the fetch, on a first byte that names no opcode. -/
theorem step_illegalOpcode_iff {ins : List HostInput} (h : s.inputs = .command (b :: bs) :: ins) :
    step s = .refused .illegalOpcode ↔ opcodeOf b = none := by
  refine ⟨fun hstep => ?_, fun hb => step_of_no_command h (commandOf_of_illegal_opcode hb)⟩
  cases ho : opcodeOf b with
  | none => rfl
  | some o =>
    obtain rfl := code_of_opcodeOf ho
    by_cases hw : ∃ i, decode (o.code :: bs) = .ok (i, [])
    · obtain ⟨i, hd⟩ := hw
      rw [step_of_command h (commandOf_of_decode hd)] at hstep
      exact absurd hstep exec_ne_illegalOpcode
    · rw [step_of_no_command h (commandOf_of_not_whole fun i hd => hw ⟨i, hd⟩)] at hstep
      cases hstep

/-- Settles O5: the bytes that name no opcode are those R57 lists. -/
theorem illegalOpcodesRefused : Obligations.IllegalOpcodesRefused :=
  fun _ b _ _ hin => (step_illegalOpcode_iff hin).trans (opcodeOf_eq_none_iff b)

/-! ### The pseudo-instructions (R63) -/

theorem encode_rxChunk (bs : List Byte) : encode (.rxChunk bs) = (bs.map .rxByte).flatMap encode := by
  rw [List.flatMap_map]; rfl

theorem encode_crcSeq (bs : List Byte) :
    encode (.crcSeq bs) = encode .crcInit ++ (bs.map .crcFeed).flatMap encode := by
  rw [List.flatMap_map]; rfl

/-- Settles O17: a run of bytes is its RX.BYTEs or its CRC.FEEDs, and feeding bytes writes `CRC_ACC` and
the results only. -/
theorem pseudoInstructionsAreExpansions : Obligations.PseudoInstructionsAreExpansions := by
  intro s bs
  refine ⟨(execAll_rxBytes bs s).symm, (execAll_crcFeeds bs _).symm, encode_rxChunk bs,
    encode_crcSeq bs, rfl, _, execCrcSeq_eq bs, ?_⟩
  rw [feedBytes_eq]
  exact ⟨rfl, SameReceiver.refl s, rfl, by simp [List.replicate_succ]⟩

end Sys2Proof.Machine
end

section
/-! PROOF. The wire frames (spec/30_encoding.md R41 to R47, R53): each decoder reads back what the encoder
writes and nothing else, and what a response frame does when it is received (log entry 6). -/

namespace Sys2Proof.Machine

variable {s : State} {i : Instr} {bs rest : List Byte}

/-! ### Request frames (R41, R42, R43, R47) -/

theorem withTrailer_of_le16 {f : List Byte} {cL cH : Byte} (h : le16 cL cH = crc16 f) :
    withTrailer f = f ++ [cL, cH] := by
  rw [withTrailer, ← h, lo_le16, hi_le16]

/-- The wire's high and low bytes of the two fields put back together (R42). -/
theorem requestFields_be16 (slave fc aH aL qH qL : Byte) :
    requestFields slave fc (be16 aH aL) (be16 qH qL) = [slave, fc, aH, aL, qH, qL] := by
  simp [requestFields, u16Bytes]

/-- The request frame form that a function code names (R43). -/
def requestForm (slave fc : Byte) (addr qty : U16) : Option Instr :=
  match fc.toNat with
  | 0x01 => some (.wireReq01 slave addr qty)
  | 0x02 => some (.wireReq02 slave addr qty)
  | 0x03 => some (.wireReq03 slave addr qty)
  | 0x04 => some (.wireReq04 slave addr qty)
  | _ => none

theorem encode_of_requestForm {slave fc : Byte} {addr qty : U16}
    (h : requestForm slave fc addr qty = some i) :
    encode i = withTrailer (requestFields slave fc addr qty) := by
  unfold requestForm at h
  split at h
  case h_1 hfc => cases h; obtain rfl : fc = 0x01#8 := BitVec.eq_of_toNat_eq hfc; rfl
  case h_2 hfc => cases h; obtain rfl : fc = 0x02#8 := BitVec.eq_of_toNat_eq hfc; rfl
  case h_3 hfc => cases h; obtain rfl : fc = 0x03#8 := BitVec.eq_of_toNat_eq hfc; rfl
  case h_4 hfc => cases h; obtain rfl : fc = 0x04#8 := BitVec.eq_of_toNat_eq hfc; rfl
  case h_5 => cases h

theorem decodeRequestFrame_eight (slave fc aH aL qH qL cL cH : Byte) :
    decodeRequestFrame [slave, fc, aH, aL, qH, qL, cL, cH] =
      if le16 cL cH = crc16 [slave, fc, aH, aL, qH, qL] then
        requestForm slave fc (be16 aH aL) (be16 qH qL)
      else none := rfl

/-- A request frame with its own trailer is read as the form its function code names. -/
theorem decodeRequestFrame_withTrailer (slave fc : Byte) (addr qty : U16) :
    decodeRequestFrame (withTrailer (requestFields slave fc addr qty)) =
      requestForm slave fc addr qty := by
  change decodeRequestFrame [slave, fc, hi addr, lo addr, hi qty, lo qty, lo _, hi _] = _
  rw [decodeRequestFrame_eight, be16_hi_lo, be16_hi_lo]
  exact if_pos (le16_lo_hi _)

/-- Bytes read as a request frame are its six fields, whose function code names the form, and their own
trailer. -/
theorem decodeRequestFrame_some {f : List Byte} (h : decodeRequestFrame f = some i) :
    ∃ slave fc addr qty, requestForm slave fc addr qty = some i ∧
      f = withTrailer (requestFields slave fc addr qty) := by
  match f, h with
  | [slave, fc, aH, aL, qH, qL, cL, cH], h =>
    rw [decodeRequestFrame_eight] at h
    split at h
    case isTrue hcrc =>
      refine ⟨slave, fc, be16 aH aL, be16 qH qL, h, ?_⟩
      rw [requestFields_be16, withTrailer_of_le16 hcrc]
      rfl
    case isFalse => cases h

/-- Settles O11: the decoder checks the trailer and the function code, which with the six fields make up
the frame. -/
theorem requestFramesRoundTrip : Obligations.RequestFramesRoundTrip := by
  refine ⟨fun slave addr qty => ⟨decodeRequestFrame_withTrailer slave 0x01#8 addr qty,
    decodeRequestFrame_withTrailer slave 0x02#8 addr qty,
    decodeRequestFrame_withTrailer slave 0x03#8 addr qty,
    decodeRequestFrame_withTrailer slave 0x04#8 addr qty⟩, fun f i h => ?_⟩
  obtain ⟨slave, fc, addr, qty, hform, rfl⟩ := decodeRequestFrame_some h
  exact encode_of_requestForm hform

/-! ### Response frames (R44 to R46, R53) -/

@[simp] theorem exceptionBit_functionByte (exc : Bool) (fc : BitVec 7) :
    exceptionBit (functionByte exc fc) = exc := functionByte_bit exc fc

theorem decodeResponseFrame_exception (q : U16) (slave : Byte) (fc : BitVec 7) (code : Byte) (crc : U16)
    (rest : List Byte) :
    decodeResponseFrame q (encode (.wireRspException slave fc code crc) ++ rest) =
      some (.wireRspException slave fc code crc, rest) := by
  simp [encode, decodeResponseFrame]

theorem decodeResponseFrame_normal {q : U16} {data : List Byte} (slave : Byte) (fc : BitVec 7)
    (count : Byte) (crc : U16) (rest : List Byte) (hdata : data.length = 2 * q.toNat) :
    decodeResponseFrame q (encode (.wireRspNormal slave fc count data crc) ++ rest) =
      some (.wireRspNormal slave fc count data crc, rest) := by
  simp [encode, decodeResponseFrame, ← hdata]

/-- A received byte 1, put together from its exception bit and the seven bits below it (R46). -/
theorem functionByte_of_exceptionBit {f : Byte} {exc : Bool} (h : exceptionBit f = exc) :
    functionByte exc (f.setWidth 7) = f :=
  h ▸ functionByte_of_bits f

/-- Two bytes found behind the first `n` of a sequence: there are `n`, and the sequence is these parts. -/
theorem eq_take_append_of_drop {r after : List Byte} {n : Nat} {x y : Byte}
    (h : r.drop n = x :: y :: after) : (r.take n).length = n ∧ r = r.take n ++ x :: y :: after := by
  refine ⟨?_, by rw [← h, List.take_append_drop]⟩
  have hlen := congrArg List.length h
  rw [List.length_drop, List.length_cons, List.length_cons] at hlen
  rw [List.length_take]
  omega

/-- Every response frame read: an exception of five bytes when bit 7 of byte 1 is set, and otherwise a
normal frame with the data bytes of the quantity; in both the bytes read are its encoding. -/
theorem decodeResponseFrame_some {q : U16} (h : decodeResponseFrame q bs = some (i, rest)) :
    ((byteAt bs 1).getLsbD 7 = true ∧ ∃ slave fc code crc, i = .wireRspException slave fc code crc ∧
        bs = encode i ++ rest) ∨
    ((byteAt bs 1).getLsbD 7 = false ∧ ∃ slave fc count data crc,
        i = .wireRspNormal slave fc count data crc ∧ data.length = 2 * q.toNat ∧
        bs = encode i ++ rest) := by
  unfold decodeResponseFrame at h
  split at h
  case h_2 => cases h
  case h_1 slave f code r =>
    split at h
    case isTrue hbit =>
      split at h
      case h_2 => cases h
      case h_1 cL cH after =>
        cases h
        refine .inl ⟨hbit, _, _, _, _, rfl, ?_⟩
        rw [encode, functionByte_of_exceptionBit hbit, lo_le16, hi_le16]
        rfl
    case isFalse hbit =>
      have hclear : exceptionBit f = false := eq_false_of_ne_true hbit
      split at h
      case h_2 => cases h
      case h_1 cL cH after hdrop =>
        cases h
        obtain ⟨hlen, hr⟩ := eq_take_append_of_drop hdrop
        refine .inr ⟨hclear, _, _, _, _, _, rfl, hlen, ?_⟩
        rw [encode, functionByte_of_exceptionBit hclear, lo_le16, hi_le16, List.append_assoc,
          List.append_assoc]
        exact congrArg (slave :: f :: code :: ·) hr

theorem responseDataFits_of_length {q : U16} {data : List Byte} (h : data.length = 2 * q.toNat) :
    responseDataFits data = true := by
  have hq := q.isLt
  rw [responseDataFits, h, Bool.and_eq_true, decide_eq_true_eq, decide_eq_true_eq]
  omega

/-- Settles O12: byte 1's bit 7 says which form was read, and the form's length gives the frame's. -/
theorem responseFramesRoundTrip : Obligations.ResponseFramesRoundTrip := by
  refine ⟨fun q slave fc count data crc rest hdata =>
    decodeResponseFrame_normal slave fc count crc rest hdata,
    decodeResponseFrame_exception, fun q bs rest i h => ?_⟩
  rcases decodeResponseFrame_some h with ⟨hbit, slave, fc, code, crc, rfl, hbs⟩ |
    ⟨hbit, slave, fc, count, data, crc, rfl, hdata, hbs⟩
  · refine ⟨rfl, hbs, ?_⟩
    rw [hbit]
    exact Laws.EncodedLength.wireRspException slave fc code crc
  · refine ⟨responseDataFits_of_length hdata, hbs, ?_⟩
    rw [hbit, ← hdata]
    exact Laws.EncodedLength.wireRspNormal slave fc count data crc

/-! ### A response frame as an instruction (log entry 6) -/

theorem exec_of_isResponse (h : Instr.isResponse i = true) : exec i s = receiveFrame (encode i) s := by
  cases i with
  | wireRspNormal | wireRspException => rfl
  | _ => cases h

/-- Settles O40: a response frame's bytes are received, and under R21 judging what they complete
answers. -/
theorem wireResponsesAreReceived : Obligations.WireResponsesAreReceived := by
  intro s slave fc count data crc hinv i hform
  have hresp : Instr.isResponse i = true := by rcases hform with rfl | rfl <;> rfl
  refine ⟨_, _, execAll_rxBytes (encode i) s,
    (exec_of_isResponse hresp).trans (receiveFrame_of_inv hinv _), fun hc => ?_, fun hc => ?_⟩
  · rw [if_pos hc]
    exact validate_of_complete (receiveBytes_inv hinv) hc
  · rw [if_neg hc]

/-! ### Words of the spec's programs -/

/-- Settles O7: each word is the encoding of what it is read as. -/
theorem programWordsDecode : Obligations.ProgramWordsDecode := by
  have hframe : withTrailer (requestFields 0x01#8 0x03#8 0x0000#16 0x0002#16) =
      [0x01#8, 0x03#8, 0x00#8, 0x00#8, 0x00#8, 0x02#8, 0xC4#8, 0x0B#8] := by decide +kernel
  exact ⟨decode_encode_append [] (i := .reqBuild 0x01#8 0x03#8 0x0000#16 0x0002#16) rfl rfl,
    decode_encode_append [] (i := .rxStart 2#16) rfl rfl,
    decode_encode_append [] (i := .rxByte 0x83#8) rfl rfl,
    decode_encode_append [] (i := .crcCalc [0x31#8, 0x32#8, 0x33#8]) rfl rfl,
    decode_encode_append [] (i := .decRegs 1#16 [0x01#8, 0x03#8, 0x02#8, 0xFF#8, 0xFF#8]) rfl rfl,
    hframe ▸ decodeRequestFrame_withTrailer 0x01#8 0x03#8 0x0000#16 0x0002#16,
    decodeResponseFrame_exception 2#16 0x01#8 0x03#7 0x02#8 0xF1C0#16 []⟩

end Sys2Proof.Machine
end

section
/-! PROOF. The byte layouts of results (spec/30_encoding.md R56) and the example lines of an assembly
listing (R62). -/

namespace Sys2Proof.Machine

/-! ### Results as bytes (R56, R110) -/

theorem exists_resultBytes_eq_cons {r : Result} {c : Byte} (h : statusCode r = some c) :
    ∃ bs, resultBytes r = c :: bs := by
  cases r with
  | frame | frameTooLong | payload | crcMismatch | modbusException => cases h; exact ⟨_, rfl⟩
  | none | crc | taken | status | regs | coils => cases h

theorem toNat_eq_hi_lo (v : U16) : v.toNat = (hi v).toNat * 256 + (lo v).toNat := by
  rw [← be16_toNat, be16_hi_lo]

theorem exists_u16Bytes (v : U16) :
    ∃ h l, u16Bytes v = [h, l] ∧ v.toNat = h.toNat * 256 + l.toNat :=
  ⟨hi v, lo v, rfl, toNat_eq_hi_lo v⟩

theorem exists_u32Bytes {m : Nat} (hm : m < 2 ^ 32) :
    ∃ m3 m2 m1 m0, u32Bytes m = [m3, m2, m1, m0] ∧
      m = m3.toNat * 2 ^ 24 + m2.toNat * 2 ^ 16 + m1.toNat * 2 ^ 8 + m0.toNat := by
  obtain ⟨m3, m2, m1, m0, hb, hsum⟩ := u32Of_u32Bytes hm
  exact ⟨m3, m2, m1, m0, hb, hsum.symm.trans (u32Of_eq_sum m3 m2 m1 m0)⟩

/-- The status record's twelve bytes, field by field. -/
theorem exists_resultBytes_status (st : RxState) (exc : Bool) {len : Nat} (expect : BitVec 18)
    (qty : U16) (hlen : len < 2 ^ 32) :
    ∃ b2 b3 b4 b5 b6 b7 b8 b9 b10 b11, resultBytes (.status st exc len expect qty) =
        [st.code.setWidth 8, bitByte exc, b2, b3, b4, b5, b6, b7, b8, b9, b10, b11] ∧
      len = b2.toNat * 2 ^ 24 + b3.toNat * 2 ^ 16 + b4.toNat * 2 ^ 8 + b5.toNat ∧
      expect.toNat = b6.toNat * 2 ^ 24 + b7.toNat * 2 ^ 16 + b8.toNat * 2 ^ 8 + b9.toNat ∧
      qty.toNat = b10.toNat * 256 + b11.toNat := by
  obtain ⟨b2, b3, b4, b5, hb, hlenSum⟩ := exists_u32Bytes hlen
  obtain ⟨b6, b7, b8, b9, hb', hexpect⟩ := exists_u32Bytes (m := expect.toNat) (by omega)
  obtain ⟨b10, b11, hb'', hqty⟩ := exists_u16Bytes qty
  refine ⟨b2, b3, b4, b5, b6, b7, b8, b9, b10, b11, ?_, hlenSum, hexpect, hqty⟩
  rw [resultBytes, hb, hb', hb'']
  rfl

theorem setWidth_code (st : RxState) :
    st.code.setWidth 8 = match st with | .idle => 0#8 | .receiving => 1#8 | .complete => 2#8 := by
  cases st <;> rfl

/-- Register values lie two bytes apart, each high byte first. -/
theorem getElem?_flatMap_u16Bytes {vs : List U16} {k : Nat} {v : U16} (h : vs[k]? = some v) :
    (vs.flatMap u16Bytes)[2 * k]? = some (hi v) ∧ (vs.flatMap u16Bytes)[2 * k + 1]? = some (lo v) := by
  induction vs generalizing k with
  | nil => cases h
  | cons w vs ih =>
    cases k with
    | zero => cases h; exact ⟨rfl, rfl⟩
    | succ k => exact ih h

/-- Settles O57: each result's layout, with its multi-byte values by value. -/
theorem resultLayouts : Obligations.ResultLayouts := by
  refine ⟨fun _ _ => exists_resultBytes_eq_cons, rfl, exists_u16Bytes, fun _ => rfl, fun _ => rfl, fun _ => rfl,
    ?_, ?_, ?_, fun _ _ => rfl, ?_, ?_⟩
  · intro st exc len expect qty hlen
    have h := exists_resultBytes_status st exc expect qty (len := len) (by omega)
    rw [setWidth_code] at h
    exact h
  · intro p hp
    obtain ⟨m3, m2, m1, m0, hb, hsum⟩ := exists_u32Bytes hp
    refine ⟨m3, m2, m1, m0, ?_, hsum⟩
    rw [resultBytes, bytesField, hb]
    rfl
  · intro a b
    obtain ⟨aH, aL, ha, hsumA⟩ := exists_u16Bytes a
    obtain ⟨bH, bL, hb, hsumB⟩ := exists_u16Bytes b
    refine ⟨aH, aL, bH, bL, ?_, hsumA, hsumB⟩
    rw [resultBytes, ha, hb]
    rfl
  · intro vs
    refine ⟨length_flatMap_u16Bytes vs, fun k v hv => ?_⟩
    obtain ⟨hhi, hlo⟩ := getElem?_flatMap_u16Bytes hv
    exact ⟨hi v, lo v, hhi, hlo, toNat_eq_hi_lo v⟩
  · intro vs
    refine ⟨List.length_map _, fun k v hv => ?_⟩
    rw [resultBytes, List.getElem?_map, hv]
    rfl

/-! ### Assembly lines (R62) -/

theorem assemble_cons {l : List Char} {ls : List (List Char)} {is js : List Instr}
    (hl : assembleLine l = some is) (hls : assemble ls = some js) :
    assemble (l :: ls) = some (is ++ js) := by
  rw [assemble, hl, hls]
  rfl

/-- Settles O58: the example lines are computed, and a program is read line by line. -/
theorem assemblyExamplesRead : Obligations.AssemblyExamplesRead :=
  ⟨by decide, by decide, by decide, by decide, by decide, by decide, fun _ _ _ _ => assemble_cons⟩

end Sys2Proof.Machine
end

section
/-! PROOF. The CRC (spec/40_crc.md): the algorithm (R66 to R68), the CRC commands (R69 to R73), the residue
and the errors it detects (R74, R75), and the codec's commands beside `CRC_ACC` (R72, R15). -/

namespace Sys2Proof.Machine

variable {s t : State} {i : Instr}

/-! ### The algorithm (R66 to R68) -/

theorem crcRounds_eq_iterate (n : Nat) (acc : U16) : crcRounds n acc = crcRound^[n] acc := by
  induction n generalizing acc with
  | zero => rfl
  | succ n ih => exact ih (crcRound acc)

theorem crc16_concat (bs : List Byte) (b : Byte) : crc16 (bs ++ [b]) = crcStep (crc16 bs) b :=
  crc16_append bs [b]

theorem crcStep_init_one : crcStep 0xFFFF#16 0x01#8 = 0x807E#16 := by decide

theorem crcStep_init_zero : crcStep 0xFFFF#16 0x00#8 = 0x40BF#16 := by decide

/-- The worked request of R71 and R72. -/
theorem crc16_worked_request : crc16 [0x01#8, 0x03#8, 0x00#8, 0x00#8, 0x00#8, 0x02#8] = 0x0BC4#16 := by
  decide +kernel

/-- Settles O13: `crcRounds` is the iterate of a round, and the CRC of a sequence is taken byte by byte. -/
theorem crcAlgorithm : Obligations.CrcAlgorithm :=
  ⟨fun _ => rfl, fun _ _ => crcRounds_eq_iterate 8 _, crcStep_init_one, rfl, crc16_concat⟩

/-! ### The CRC commands (R69 to R73) -/

theorem exec_crcRead (s : State) : exec .crcRead s = .next (emit (.crc s.crcAcc) s) := rfl

theorem exec_crcCalc (bs : List Byte) (s : State) :
    exec (.crcCalc bs) s = .next (emit (.crc (crc16 bs)) s) := rfl

/-- CRC.INIT and one CRC.FEED a byte are CRC.SEQ (R63). -/
theorem execAll_init_crcFeeds (bs : List Byte) (s : State) :
    execAll ([.crcInit] ++ bs.map .crcFeed) s = exec (.crcSeq bs) s :=
  execAll_crcFeeds bs _

theorem exec_crcSeq_crcAcc (bs : List Byte) (s : State) :
    ∃ t, exec (.crcSeq bs) s = .next t ∧ t.crcAcc = crc16 bs :=
  ⟨_, execCrcSeq_eq bs, by rw [feedBytes_eq]; rfl⟩

/-- A sequence that leaves a CRC in `CRC_ACC`, read out. -/
theorem execAll_then_crcRead {is : List Instr} (h : execAll is s = .next t) :
    execAll (is ++ [.crcRead]) s = .next (emit (.crc t.crcAcc) t) := by
  rw [execAll_append h, execAll_cons_next (exec_crcRead t), execAll_nil]

theorem getLast?_emit_results (r : Result) (s : State) : (emit r s).results.getLast? = some r :=
  List.getLast?_concat

/-- Settles O14: each command's whole next state; the worked sequence is a CRC.SEQ read out. -/
theorem accumulatorCommands : Obligations.AccumulatorCommands := by
  refine ⟨fun _ => rfl, fun _ _ => rfl, crcStep_init_one, crcStep_init_zero, fun _ => rfl, fun s => ?_⟩
  obtain ⟨t, ht, hacc⟩ := exec_crcSeq_crcAcc [0x01#8, 0x03#8, 0x00#8, 0x00#8, 0x00#8, 0x02#8] s
  refine ⟨_, execAll_then_crcRead (is := [_]) (execAll_cons_next ht), ?_⟩
  rw [getLast?_emit_results, hacc, crc16_worked_request]

/-- Settles O15: CRC.CALC only hands out its result, and neither REQ.BUILD nor RX.VALIDATE is one of the
three writers of `CRC_ACC`. -/
theorem crcCalcOnItsOwnDatapath : Obligations.CrcCalcOnItsOwnDatapath :=
  ⟨fun s bs => exec_crcCalc bs s, rfl, crc16_worked_request,
    fun _ _ _ _ _ _ h => exec_keeps_crcAcc h nofun nofun nofun,
    fun _ _ h => exec_keeps_crcAcc h nofun nofun nofun⟩

/-- Settles O16: the run is a CRC.SEQ, which leaves `crc16` of its bytes to be read. -/
theorem accumulatingEqualsComputingWhole : Obligations.AccumulatingEqualsComputingWhole := by
  refine ⟨fun s bs => ?_, crc16_concat⟩
  obtain ⟨t, ht, hacc⟩ := exec_crcSeq_crcAcc bs s
  have hrun := execAll_then_crcRead ((execAll_init_crcFeeds bs s).trans ht)
  rw [hacc] at hrun
  exact ⟨_, _, hrun, getLast?_emit_results _ _, exec_crcCalc bs s, getLast?_emit_results _ _⟩

/-! ### The residue (R74) -/

/-- Settles O18: two more bytes are sixteen rounds of the CRC XORed with them, and only zero goes to zero. -/
theorem crcResidue : Obligations.CrcResidue := by
  intro s cL cH
  rw [crc16_append, crcFrom_pair]
  constructor
  · exact fun h => ((xor_eq_zero_iff_eq _ _).1 (crcRounds_eq_zero h)).symm
  · intro h
    rw [h, BitVec.xor_self, crcRounds_zero]

theorem crc16_withTrailer (f : List Byte) : crc16 (withTrailer f) = 0#16 :=
  (crcResidue f _ _).2 (le16_lo_hi _)

/-- The comparison the parser makes, on a frame of any `n + 2` bytes, asks for residue zero. -/
theorem crc16_take_eq_trailer_iff {g : List Byte} {n : Nat} (h : g.length = n + 2) :
    crc16 (g.take n) = le16 (byteAt g n) (byteAt g (n + 1)) ↔ crc16 g = 0#16 := by
  conv_rhs => rw [take_append_last_two h]
  rw [crcResidue, eq_comm]

/-! ### Detected errors (R75) -/

/-- Two frames that agree around a middle part have the same CRC exactly when the middles lead from the
one accumulator to the same one. -/
theorem crc16_middle_eq_iff (pre post m m' : List Byte) :
    crc16 (pre ++ m ++ post) = crc16 (pre ++ m' ++ post) ↔
      crcFrom (crc16 pre) m = crcFrom (crc16 pre) m' := by
  rw [crc16_append, crc16_append _ post, crcFrom_injective, crc16_append, crc16_append]

/-- A change of a correctly trailed frame's middle part that the CRC of the middle tells apart fails the
comparison. -/
theorem crc16_take_ne_trailer_of_middle {f pre post m m' : List Byte}
    (hf : withTrailer f = pre ++ m ++ post) (hlen : m'.length = m.length)
    (hne : crcFrom (crc16 pre) m' ≠ crcFrom (crc16 pre) m) :
    crc16 ((pre ++ m' ++ post).take f.length) ≠
      le16 (byteAt (pre ++ m' ++ post) f.length) (byteAt (pre ++ m' ++ post) (f.length + 1)) := by
  have hg : (pre ++ m' ++ post).length = f.length + 2 := by
    rw [← length_withTrailer, hf]
    simp [hlen]
  rw [Ne, crc16_take_eq_trailer_iff hg, ← crc16_withTrailer f, hf, crc16_middle_eq_iff]
  exact hne

theorem crcStep_injective {acc : U16} {x b : Byte} (h : crcStep acc x = crcStep acc b) : x = b :=
  zext16_injective ((BitVec.xor_right_inj acc).1 ((crcStep_eq_iff _ _ _ _).1 h))

/-- Settles O19: a step tells any two bytes apart, and the rest of the frame keeps them apart. -/
theorem oneByteErrorDetected : Obligations.OneByteErrorDetected := by
  intro f j b hj hne
  have hsplit : withTrailer f =
      (withTrailer f).take j ++ [byteAt (withTrailer f) j] ++ (withTrailer f).drop (j + 1) := by
    rw [byteAt_eq_getElem hj, List.append_assoc, List.singleton_append, List.getElem_cons_drop,
      List.take_append_drop]
  have hset : (withTrailer f).set j b =
      (withTrailer f).take j ++ [b] ++ (withTrailer f).drop (j + 1) := by
    rw [List.set_eq_take_append_cons_drop, if_pos hj, List.append_assoc, List.singleton_append]
  rw [hset]
  exact crc16_take_ne_trailer_of_middle hsplit rfl fun h => hne (crcStep_injective h).symm

/-- XORing three bytes XORs the CRC with that of the three changes from zero. -/
theorem crcFrom_xor_three (acc : U16) (x y z d₀ d₁ d₂ : Byte) :
    crcFrom acc [x ^^^ d₀, y ^^^ d₁, z ^^^ d₂] =
      crcFrom acc [x, y, z] ^^^ crcFrom 0#16 [d₀, d₁, d₂] := by
  rw [← crcFrom_xor _ _ [x, y, z] [d₀, d₁, d₂] rfl, BitVec.xor_zero]
  rfl

/-- While the top `n` bits are clear, `n` rounds undo a shift up. -/
theorem crcRounds_shiftLeft {n : Nat} {v : U16} (h : ∀ k, 16 ≤ k + n → v.getLsbD k = false) :
    crcRounds n (v <<< n) = v := by
  rw [crcRounds_of_low_clear n _ fun k hk => by simp [BitVec.getLsbD_shiftLeft, hk]]
  apply BitVec.eq_of_getLsbD_eq
  intro k hk
  rw [BitVec.getLsbD_ushiftRight, BitVec.getLsbD_shiftLeft]
  by_cases hn : n + k < 16
  · simp [hn]
  · simp [hn, h k (by omega)]

/-- Bytes 1 and 2 of a burst, little-endian, are its bits from 8 up. -/
theorem le16_extractLsb' (e : BitVec 24) :
    le16 (e.extractLsb' 8 8) (e.extractLsb' 16 8) = e.extractLsb' 8 16 := by
  apply BitVec.eq_of_getLsbD_eq
  intro k hk
  simp only [le16, zext16, BitVec.getLsbD_or, BitVec.getLsbD_shiftLeft, BitVec.getLsbD_setWidth,
    BitVec.getLsbD_extractLsb']
  by_cases h8 : k < 8
  · simp [h8, hk]
  · simp [h8, hk, show k - 8 < 16 by omega, show k - 8 < 8 by omega, show 16 + (k - 8) = 8 + k by omega]

section Burst

variable {p : BitVec 16} {o : Nat} {e : BitVec 24}

theorem getLsbD_burst (he : e = p.setWidth 24 <<< o) (k : Nat) :
    e.getLsbD k = (decide (k < 24) && decide (o ≤ k) && p.getLsbD (k - o)) := by
  rw [he, BitVec.getLsbD_shiftLeft, BitVec.getLsbD_setWidth]
  by_cases h24 : k < 24
  · by_cases hk : o ≤ k
    · simp [h24, hk, show ¬k < o by omega, show k - o < 24 by omega]
    · simp [h24, hk, show k < o by omega]
  · simp [h24]

/-- The pattern put back together from the first byte of the burst and the two after it. -/
theorem burst_pattern_eq (he : e = p.setWidth 24 <<< o) (ho : o ≤ 8) :
    p = (zext16 (e.extractLsb' 0 8) >>> o) ^^^ (e.extractLsb' 8 16 <<< (8 - o)) := by
  apply BitVec.eq_of_getLsbD_eq
  intro k hk
  simp only [zext16, BitVec.getLsbD_xor, BitVec.getLsbD_ushiftRight, BitVec.getLsbD_shiftLeft,
    BitVec.getLsbD_setWidth, BitVec.getLsbD_extractLsb', getLsbD_burst he]
  by_cases h8 : o + k < 8
  · simp [h8, show o + k < 16 by omega, show o + k < 24 by omega, show k < 8 - o by omega]
  · simp [h8, hk, show ¬k < 8 - o by omega, show k - (8 - o) < 16 by omega,
      show 8 + (k - (8 - o)) = o + k by omega, show o + k < 24 by omega]

/-- Over three bytes, a burst that starts at bit `o` is `24 - o` rounds of its pattern. -/
theorem crcFrom_burst (he : e = p.setWidth 24 <<< o) (ho : o ≤ 8) :
    crcFrom 0#16 [e.extractLsb' 0 8, e.extractLsb' 8 8, e.extractLsb' 16 8] = crcRounds (24 - o) p := by
  have hlow : ∀ k, k < o → (zext16 (e.extractLsb' 0 8)).getLsbD k = false := by
    intro k hk
    simp [zext16, BitVec.getLsbD_extractLsb', getLsbD_burst he, show ¬o ≤ k by omega]
  have hhigh : ∀ k, 16 ≤ k + (8 - o) → (e.extractLsb' 8 16).getLsbD k = false := by
    intro k hk
    simp [BitVec.getLsbD_extractLsb', getLsbD_burst he,
      BitVec.getLsbD_of_ge p (8 + k - o) (by omega)]
  have hfirst : crcStep 0#16 (e.extractLsb' 0 8) ^^^ e.extractLsb' 8 16 = crcRounds (8 - o) p := by
    conv_rhs => rw [burst_pattern_eq he ho, crcRounds_xor, crcRounds_shiftLeft hhigh,
      ← crcRounds_of_low_clear o _ hlow, ← crcRounds_add, show o + (8 - o) = 8 by omega]
    rw [crcStep, BitVec.zero_xor]
  rw [crcFrom_cons, crcFrom_pair, le16_extractLsb', hfirst, ← crcRounds_add,
    show 8 - o + 16 = 24 - o by omega]

end Burst

/-- Settles O20: from zero a burst leads to rounds of its pattern, and only zero goes to zero. -/
theorem sixteenBitBurstDetected : Obligations.SixteenBitBurstDetected := by
  rintro f pre post x y z p o hf hp ho e he g rfl
  refine crc16_take_ne_trailer_of_middle hf rfl fun heq => hp ?_
  rw [crcFrom_xor_three, crcFrom_burst he ho] at heq
  exact crcRounds_eq_zero ((BitVec.xor_right_inj (crcFrom (crc16 pre) [x, y, z])).1
    (heq.trans BitVec.xor_zero.symm))

/-! ### The codec's commands beside `CRC_ACC` (R72, R15) -/

/-- An instruction that neither reads nor writes `CRC_ACC` does the same whatever the register holds. -/
theorem exec_setCrc (v : U16) (h : exec i s = .next t) (hread : Instr.readsAccumulator i = false)
    (hinit : i ≠ .crcInit) (hseq : ∀ bs, i ≠ .crcSeq bs) :
    exec i (setCrc v s) = .next (setCrc v t) := by
  have hfeed : ∀ b, i ≠ .crcFeed b := by rintro b rfl; cases hread
  have hagree := exec_agree (s' := setCrc v s) i (SameReceiver.refl s) (.inr hread)
  rw [h] at hagree
  cases h' : exec i (setCrc v s) with
  | next t' =>
    rw [h'] at hagree
    obtain ⟨hrecv, ⟨rs, hres, hres'⟩, hin, hin', -⟩ := hagree
    have hacc : t'.crcAcc = v := exec_keeps_crcAcc h' hinit hfeed hseq
    exact congrArg _ (State.ext_fields hrecv hacc (hin'.trans hin.symm) (hres'.trans hres.symm))
  | fault r => rw [h'] at hagree; exact hagree.elim
  | refused r => rw [h'] at hagree; exact hagree.elim

/-- Settles O56, by induction over the list: each instruction keeps `CRC_ACC` and runs the same beside any
other value of it. -/
theorem codecIgnoresAccumulator : Obligations.CodecIgnoresAccumulator := by
  intro is
  induction is with
  | nil => rintro s v - t h; cases h; exact ⟨rfl, rfl⟩
  | cons i is ih =>
    intro s v hcodec t h
    obtain ⟨⟨hread, hinit, hfeed, hseq⟩, hrest⟩ := List.forall_mem_cons.1 hcodec
    have hread' : Instr.readsAccumulator i = false := by
      cases i with
      | crcRead => exact absurd rfl hread
      | crcFeed b => exact absurd rfl (hfeed b)
      | _ => rfl
    cases hi : exec i s with
    | next u =>
      rw [execAll_cons_next hi] at h
      obtain ⟨hacc, hrun⟩ := ih u v hrest t h
      refine ⟨hacc.trans (exec_keeps_crcAcc hi hinit hfeed hseq), ?_⟩
      exact (execAll_cons_next (exec_setCrc v hi hread' hinit hseq)).trans hrun
    | fault r => simp only [execAll, hi] at h; cases h
    | refused r => simp only [execAll, hi] at h; cases h

end Sys2Proof.Machine
end

section
/-! PROOF. The request encoder (spec/41_request_encoder.md): the trailer of a built frame (R80), the
function codes it admits (R77), and the length guard that never fires (R78). -/

namespace Sys2Proof.Machine

variable {s t : State} {i : Instr} {r : Result} {n : Nat}

/-! ### The built frame and the admitted codes (R77, R80) -/

/-- A frame with its own trailer passes the comparison the parser makes (R29, R47). -/
theorem le16_trailer_withTrailer (f : List Byte) :
    le16 (byteAt (withTrailer f) f.length) (byteAt (withTrailer f) (f.length + 1)) =
      crc16 ((withTrailer f).take f.length) :=
  ((crc16_take_eq_trailer_iff (length_withTrailer f)).2 (crc16_withTrailer f)).symm

/-- Settles O22: the frame handed out is the six fields with their trailer. -/
theorem builtFramesCarryTheirCrc : Obligations.BuiltFramesCarryTheirCrc := by
  intro s t slave fc addr qty f h hres
  obtain ⟨-, rfl⟩ := buildRequest_next h
  have hframe : [Result.frame (withTrailer (requestFields slave fc addr qty))] = [.frame f] :=
    List.append_cancel_left hres
  obtain rfl : withTrailer (requestFields slave fc addr qty) = f :=
    Result.frame.inj (List.singleton_injective hframe)
  exact ⟨length_withTrailer _, le16_trailer_withTrailer (requestFields slave fc addr qty)⟩

/-- Settles O23: the codes 1 to 4 are the admitted ones. -/
theorem onlyFourFunctionCodes : Obligations.OnlyFourFunctionCodes := by
  intro s slave fc addr qty
  refine ⟨fun hout => ?_, fun hin => ⟨_, exec_reqBuild ((admittedFunctionCode_iff fc).2 hin)⟩⟩
  have hnot : admittedFunctionCode fc = false := by
    rw [← Bool.not_eq_true, admittedFunctionCode_iff]
    omega
  exact buildRequest_refused hnot

/-! ### No FRAME_TOO_LONG (R78) -/

theorem frameTooLong_mem_emit_iff (hr : r ≠ .frameTooLong n) :
    .frameTooLong n ∈ (emit r s).results ↔ .frameTooLong n ∈ s.results := by
  simp [emit, hr.symm]

/-- A received byte hands out a `taken` bit only (R83, R86). -/
theorem frameTooLong_mem_receiveByte_iff (b : Byte) :
    .frameTooLong n ∈ (receiveByte b s).results ↔ .frameTooLong n ∈ s.results := by
  by_cases h : s.rxState = .receiving
  · rw [receiveByte_of_receiving h]
    exact frameTooLong_mem_emit_iff (s := absorb b s) nofun
  · rw [receiveByte_of_not_receiving h]
    exact frameTooLong_mem_emit_iff nofun

theorem frameTooLong_mem_receiveBytes_iff (bs : List Byte) :
    .frameTooLong n ∈ (receiveBytes bs s).results ↔ .frameTooLong n ∈ s.results := by
  induction bs generalizing s with
  | nil => rfl
  | cons b bs ih => exact ih.trans (frameTooLong_mem_receiveByte_iff b)

theorem frameTooLong_mem_feedBytes_iff (bs : List Byte) :
    .frameTooLong n ∈ (feedBytes bs s).results ↔ .frameTooLong n ∈ s.results := by
  simp [feedBytes_eq]

/-- No instruction adds or removes a FRAME_TOO_LONG: REQ.BUILD's guard is dead (R78), and no other result
is one. -/
theorem exec_frameTooLong_mem_iff (h : exec i s = .next t) :
    .frameTooLong n ∈ t.results ↔ .frameTooLong n ∈ s.results := by
  rcases exec_next_cases h with ⟨-, r, rfl, hr⟩ | ⟨-, rfl⟩ | ⟨b, -, rfl⟩ | ⟨bs, -, rfl⟩ | ⟨q, -, rfl⟩ |
    ⟨-, rfl⟩ | ⟨b, -, rfl⟩ | ⟨bs, -, rfl⟩ | ⟨-, ⟨rfl, -⟩ | ⟨-, rfl⟩⟩
  · exact frameTooLong_mem_emit_iff (hr n)
  · exact frameTooLong_mem_emit_iff nofun
  · exact frameTooLong_mem_emit_iff nofun
  · exact (frameTooLong_mem_feedBytes_iff bs).trans (frameTooLong_mem_emit_iff nofun)
  · exact frameTooLong_mem_emit_iff nofun
  · exact frameTooLong_mem_emit_iff nofun
  · exact frameTooLong_mem_receiveByte_iff b
  · exact frameTooLong_mem_receiveBytes_iff bs
  · exact frameTooLong_mem_receiveBytes_iff _
  · exact (frameTooLong_mem_emit_iff (judge_not_frame _ _ n)).trans
      (frameTooLong_mem_receiveBytes_iff _)

/-- Settles O24: a FRAME_TOO_LONG among the results was there before the instruction. -/
theorem neverFrameTooLong : Obligations.NeverFrameTooLong :=
  fun _ _ _ _ h => (exec_frameTooLong_mem_iff h).1

end Sys2Proof.Machine
end

section
/-! PROOF. The response parser (spec/42_response_parser.md): the commands that arm, clear and report the
receiver (R82, R88, R89), the bytes it absorbs (R83 to R87), what RX.VALIDATE says of a frame (R90 to R97),
and the frame whose length byte 1 decides (R98 to R100). -/

namespace Sys2Proof.Machine

variable {s t : State} {i : Instr} {f : List Byte} {q : U16} {b : Byte}

/-! ### Arming, clearing and reporting (R82, R88, R89) -/

/-- The state RX.START `q` leaves (R82). -/
def armed (q : U16) (s : State) : State := emit .none (armReceiver q s)

theorem exec_rxStart (q : U16) (s : State) : exec (.rxStart q) s = .next (armed q s) := execRxStart_eq q

theorem exec_rxChunk (f : List Byte) (s : State) : exec (.rxChunk f) s = .next (receiveBytes f s) := rfl

theorem armed_inv (q : U16) (s : State) : (armed q s).Inv :=
  Inv.congr (armReceiver_inv q s) (SameReceiver.refl (armReceiver q s))

/-- Settles O26: arming fits every quantity. -/
theorem startArmsReceiver : Obligations.StartArmsReceiver :=
  ⟨fun s q => ⟨armed q s, exec_rxStart q s, rfl, rfl, armReceiver_rxExpect_toNat s q, rfl, rfl, rfl,
    rfl, rfl⟩, rfl⟩

/-- Settles O27: the cleared registers are those R21 gives IDLE. -/
theorem abortClearsReceiver : Obligations.AbortClearsReceiver := by
  refine ⟨fun _ => rfl, fun s hi hs => ?_⟩
  obtain ⟨hbuf, hexc, hexp, hqty⟩ := (inv_of_idle hs).1 hi
  exact ⟨_, rfl, rfl, hs.symm, hqty.symm, hexp.symm, hexc.symm, hbuf.symm⟩

/-- Settles O28: RX.STATUS reads the registers, which R21 gives for IDLE. -/
theorem statusReportsReceiver : Obligations.StatusReportsReceiver := by
  refine ⟨fun _ => rfl, fun s hi hs => ⟨_, rfl, ?_⟩⟩
  obtain ⟨hbuf, hexc, hexp, hqty⟩ := (inv_of_idle hs).1 hi
  rw [emit_results, hs, hexc, hbuf, hexp, hqty]
  rfl

/-! ### One received byte (R83 to R86) -/

/-- Settles O29: a byte outside RECEIVING is only answered. -/
theorem bytesOutsideFrameDiscarded : Obligations.BytesOutsideFrameDiscarded :=
  fun _ _ h => congrArg _ (receiveByte_of_not_receiving h)

/-- Under R21 a clear latch means that bit 7 of byte 1 has not been seen. -/
theorem Tracks.exceptionSeen_eq (h : s.Tracks) : exceptionSeen s.rxBuf = s.rxExc :=
  Bool.eq_iff_iff.2 ((exceptionSeen_iff s.rxBuf).trans h.1.symm)

/-- The latch can fire only on byte 1: an earlier byte is not it, and a later one leaves it (R20, R84). -/
theorem length_eq_one_of_exceptionSeen (hold : exceptionSeen f = false)
    (hnew : exceptionSeen (f ++ [b]) = true) : f.length = 1 ∧ b.getLsbD 7 = true := by
  match f, hold, hnew with
  | [], _, hnew => cases hnew
  | [_], _, hnew => exact ⟨rfl, hnew⟩
  | _ :: _ :: _, hold, hnew => cases hold.symm.trans hnew

/-- Under R21 the latch fires on the second byte alone, and the frame is then three bytes short. -/
theorem receiveByte_of_latch (hi : s.Inv) (hs : s.rxExc = false) (ht : (receiveByte b s).rxExc = true) :
    (receiveByte b s).rxBuf.length = 2 ∧ b.getLsbD 7 = true ∧ (receiveByte b s).rxExpect = 5#18 ∧
      (receiveByte b s).rxState = .receiving := by
  by_cases hr : s.rxState = .receiving
  · obtain ⟨-, htr⟩ := (inv_of_receiving hr).1 hi
    rw [receiveByte_of_receiving hr] at ht ⊢
    obtain ⟨⟨-, hseen, -, hexp⟩ | ⟨-, hexc, -⟩, hend⟩ := absorb_cases (b := b) hr
    · obtain ⟨hlen, hbit⟩ :=
        length_eq_one_of_exceptionSeen ((Tracks.exceptionSeen_eq htr).trans hs) hseen
      have hlen' : (absorb b s).rxBuf.length = 2 := by simp [hlen]
      rw [hlen', hexp] at hend
      rcases hend with ⟨-, hfive⟩ | ⟨hrec, -⟩
      · cases hfive
      · exact ⟨hlen', hbit, hexp, hrec⟩
    · cases (hexc.trans hs).symm.trans ht
  · rw [receiveByte_of_not_receiving hr] at ht
    cases hs.symm.trans ht

/-- Settles O30: outside RECEIVING nothing is absorbed; inside, the cases of one absorbed byte. -/
theorem receivedByte : Obligations.ReceivedByte := by
  refine ⟨bytesOutsideFrameDiscarded, fun s b hr => ?_, fun s t b hi h hs ht => ?_⟩
  · obtain ⟨hlatch, hend⟩ := absorb_cases (b := b) hr
    refine ⟨_, congrArg Host.Outcome.next (receiveByte_of_receiving hr), rfl, fun hfire => ?_,
      fun hno => ?_, fun hl => ?_, fun hl => ?_, rfl, rfl, rfl, rfl⟩
    · rcases hlatch with ⟨-, -, hexc, hexp⟩ | ⟨hno, -⟩
      · exact ⟨hexc, congrArg BitVec.toNat hexp⟩
      · exact absurd ⟨hfire.1, (exceptionSeen_iff _).2 hfire.2⟩ hno
    · rcases hlatch with ⟨hs, hseen, -⟩ | ⟨-, hexc, hexp⟩
      · exact absurd ⟨hs, (exceptionSeen_iff _).1 hseen⟩ hno
      · exact ⟨hexc, hexp⟩
    · rcases hend with ⟨hc, -⟩ | ⟨-, hne⟩
      · exact hc
      · exact absurd hl hne
    · rcases hend with ⟨-, heq⟩ | ⟨hrec, -⟩
      · exact absurd heq hl
      · exact hrec
  · cases h
    obtain ⟨hlen, hbit, hexp, hrec⟩ := receiveByte_of_latch hi hs ht
    exact ⟨hlen, hbit, congrArg BitVec.toNat hexp, hrec⟩

/-! ### A chunk (R87) -/

theorem receiveBytes_ne_idle (f : List Byte) (hr : s.rxState = .receiving) :
    (receiveBytes f s).rxState ≠ .idle := by
  rcases receiveBytes_rxState s f with h | ⟨-, h, -⟩
  · rw [h, hr]; nofun
  · rw [h]; nofun

/-- Under R21 received bytes never lengthen the frame: an exception frame is the shortest (R52, R84). -/
theorem receiveBytes_rxExpect_le (f : List Byte) (hi : s.Inv) (hr : s.rxState = .receiving) :
    (receiveBytes f s).rxExpect.toNat ≤ s.rxExpect.toNat := by
  obtain ⟨-, htr⟩ := (inv_of_receiving hr).1 hi
  obtain ⟨-, htr'⟩ := Inv.tracks_of_not_idle (receiveBytes_inv hi) (receiveBytes_ne_idle f hr)
  cases he : s.rxExc with
  | true =>
    rw [Tracks.expect htr', receiveBytes_rxExc_of_set s f he, if_pos rfl]
    exact Tracks.five_le htr
  | false =>
    rw [Tracks.expect htr', Tracks.expect htr, he, if_neg Bool.false_ne_true, receiveBytes_rxQty]
    split <;> omega

/-- Settles O31: in RECEIVING the absorbed part fits what the frame still lacks; elsewhere it is empty. -/
theorem chunksAbsorbedUpToFrameEnd : Obligations.ChunksAbsorbedUpToFrameEnd := by
  refine fun s bs hi => ⟨(execAll_rxBytes bs s).symm, ?_⟩
  by_cases hr : s.rxState = .receiving
  · obtain ⟨k, hk, hbuf, hres, -⟩ := receiveBytes_of_receiving (bs := bs) hr
    refine ⟨_, k, exec_rxChunk bs s, hk, hbuf, hres, fun _ => ?_, fun hn => absurd hr hn,
      receiveBytes_crcAcc, receiveBytes_rxQty, receiveBytes_inputs⟩
    have hexp := receiveBytes_rxExpect_le bs hi hr
    obtain ⟨hfits, -⟩ :=
      Inv.tracks_of_not_idle (receiveBytes_inv (bs := bs) hi) (receiveBytes_ne_idle bs hr)
    rw [hbuf, List.length_append, List.length_take_of_le hk] at hfits
    omega
  · exact ⟨_, 0, congrArg Host.Outcome.next (receiveBytes_of_not_receiving hr), Nat.zero_le _, by simp,
      by simp, fun h => absurd h hr, fun _ => rfl, rfl, rfl, rfl⟩

/-! ### Judging (R90, R91, R97) -/

/-- Settles O34: under R21 the frame held is long enough to judge. -/
theorem validateOnlyWhenComplete : Obligations.ValidateOnlyWhenComplete :=
  ⟨fun _ => validate_of_not_complete, fun _ hi hc => ⟨_, validate_of_complete hi hc⟩⟩

/-- Settles O36: RX.VALIDATE only hands out its verdict, and does so again. -/
theorem validateIsRepeatable : Obligations.ValidateIsRepeatable := by
  intro s t h
  obtain ⟨hc, -, -⟩ := validate_next h
  obtain ⟨r, rfl, hagain⟩ := exec_repeat_of_isQuiet rfl h
  exact ⟨hc, rfl, ⟨rfl, SameReceiver.refl s⟩, r, _, rfl, hagain, rfl⟩

section Verdict
/-! The three verdicts, each from its condition (R91). -/

variable {exc : Bool}

theorem judge_of_mismatch
    (h : crc16 (f.take (f.length - 2)) ≠ le16 (byteAt f (f.length - 2)) (byteAt f (f.length - 1))) :
    judge exc f = .crcMismatch (crc16 (f.take (f.length - 2)))
      (le16 (byteAt f (f.length - 2)) (byteAt f (f.length - 1))) := if_pos h

theorem judge_of_exception (he : exc = true)
    (h : crc16 (f.take (f.length - 2)) = le16 (byteAt f (f.length - 2)) (byteAt f (f.length - 1))) :
    judge exc f = .modbusException (byteAt f 2) (excLabel (byteAt f 2)) :=
  (if_neg (not_not.2 h)).trans (if_pos he)

theorem judge_of_normal (he : exc = false)
    (h : crc16 (f.take (f.length - 2)) = le16 (byteAt f (f.length - 2)) (byteAt f (f.length - 1))) :
    judge exc f = .payload (f.take (f.length - 2)) :=
  (if_neg (not_not.2 h)).trans (if_neg (ne_true_of_eq_false he))

end Verdict

/-- The worked frame of R91, with its own trailer. -/
theorem withTrailer_worked_response :
    withTrailer [0x01#8, 0x03#8, 0x04#8, 0x00#8, 0x11#8, 0x00#8, 0x22#8] =
      [0x01#8, 0x03#8, 0x04#8, 0x00#8, 0x11#8, 0x00#8, 0x22#8, 0x2A#8, 0x2F#8] := by
  decide +kernel

/-- Settles O35: the verdict is one of the three of `judge`, each with its condition. -/
theorem validateJudgesFrame : Obligations.ValidateJudgesFrame := by
  refine ⟨?_, validateOnlyWhenComplete.1, fun s => ?_⟩
  · rintro s hi hc n computed received rfl rfl rfl
    have hval : exec .rxValidate s = .next (emit (judge s.rxExc s.rxBuf) s) :=
      validate_of_complete hi hc
    refine ⟨((inv_of_complete hc).1 hi).1, five_le_of_complete hi hc, fun hne => ?_, fun heq he => ?_,
      fun heq he => ?_⟩
    · rw [hval, judge_of_mismatch hne]; rfl
    · rw [hval, judge_of_exception he heq]; rfl
    · rw [hval, judge_of_normal he heq]; rfl
  · rw [← withTrailer_worked_response]
    exact ⟨_, execAll_deliver s rfl rfl, getLast?_emit_results _ _⟩

/-- Settles O39, code by code. -/
theorem exceptionLabels : Obligations.ExceptionLabels :=
  ⟨by decide, by decide, rfl⟩

/-! ### A frame from RX.START on (R98, R100) -/

/-- RX.START and a chunk, whatever follows them. -/
theorem execAll_start_chunk (q : U16) (f : List Byte) (is : List Instr) (s : State) :
    execAll (.rxStart q :: .rxChunk f :: is) s = execAll is (receiveBytes f (armed q s)) := by
  rw [execAll_cons_next (exec_rxStart q s), execAll_cons_next (exec_rxChunk f _)]

/-- From RX.START on, the buffer is the chunk up to the expected length, and the frame is complete when
the chunk reaches it. -/
theorem receiveBytes_armed_frame (q : U16) (f : List Byte) (s : State) :
    (receiveBytes f (armed q s)).rxBuf = f.take (receiveBytes f (armed q s)).rxExpect.toNat ∧
      (f.length < (receiveBytes f (armed q s)).rxExpect.toNat ∧
          (receiveBytes f (armed q s)).rxState = .receiving ∨
        (receiveBytes f (armed q s)).rxExpect.toNat ≤ f.length ∧
          (receiveBytes f (armed q s)).rxState = .complete) :=
  receiveBytes_armed rfl (armed_inv q s) rfl

theorem receiveBytes_armed_complete
    (h : (receiveBytes f (armed q s)).rxExpect.toNat ≤ f.length) :
    (receiveBytes f (armed q s)).rxState = .complete := by
  obtain ⟨-, ⟨hlt, -⟩ | ⟨-, hc⟩⟩ := receiveBytes_armed_frame q f s
  · omega
  · exact hc

theorem receiveBytes_armed_receiving
    (h : f.length < (receiveBytes f (armed q s)).rxExpect.toNat) :
    (receiveBytes f (armed q s)).rxState = .receiving := by
  obtain ⟨-, ⟨-, hr⟩ | ⟨hle, -⟩⟩ := receiveBytes_armed_frame q f s
  · exact hr
  · omega

theorem receiveBytes_armed_tracks (q : U16) (f : List Byte) (s : State) :
    (receiveBytes f (armed q s)).Tracks :=
  (Inv.tracks_of_not_idle (receiveBytes_inv (armed_inv q s)) (receiveBytes_ne_idle f rfl)).2

/-- The latch is bit 7 of byte 1 of the chunk: the expected length is never below 2. -/
theorem receiveBytes_armed_rxExc (q : U16) (s : State) (h2 : 2 ≤ f.length) :
    (receiveBytes f (armed q s)).rxExc = (byteAt f 1).getLsbD 7 := by
  have htr := receiveBytes_armed_tracks q f s
  have h5 := Tracks.five_le htr
  obtain ⟨hexc, -⟩ := htr
  obtain ⟨hbuf, -⟩ := receiveBytes_armed_frame q f s
  have hlen : 2 ≤ (receiveBytes f (armed q s)).rxBuf.length := by rw [hbuf, List.length_take]; omega
  rw [Bool.eq_iff_iff, hexc, and_iff_right hlen, hbuf, byteAt_take (by omega)]

theorem receiveBytes_armed_rxExpect (q : U16) (s : State) (h2 : 2 ≤ f.length) :
    (receiveBytes f (armed q s)).rxExpect.toNat =
      if (byteAt f 1).getLsbD 7 then 5 else 5 + 2 * q.toNat := by
  rw [Tracks.expect (receiveBytes_armed_tracks q f s), receiveBytes_armed_rxExc q s h2,
    receiveBytes_rxQty]
  rfl

/-- A chunk as long as its byte 1 asks is held whole and completes the frame. -/
theorem receiveBytes_armed_whole (s : State)
    (hl : f.length = if (byteAt f 1).getLsbD 7 then 5 else 5 + 2 * q.toNat) :
    (receiveBytes f (armed q s)).rxState = .complete ∧ (receiveBytes f (armed q s)).rxBuf = f ∧
      (receiveBytes f (armed q s)).rxExc = (byteAt f 1).getLsbD 7 := by
  have h2 : 2 ≤ f.length := by rw [hl]; split <;> omega
  have hexp := (receiveBytes_armed_rxExpect q s h2).trans hl.symm
  obtain ⟨hbuf, -⟩ := receiveBytes_armed_frame q f s
  rw [hexp, List.take_length] at hbuf
  exact ⟨receiveBytes_armed_complete hexp.le, hbuf, receiveBytes_armed_rxExc q s h2⟩

/-- RX.VALIDATE after the frame completes hands out the verdict on what is held. -/
theorem validate_receiveBytes_armed (hc : (receiveBytes f (armed q s)).rxState = .complete) :
    exec .rxValidate (receiveBytes f (armed q s)) =
      .next (emit (judge (receiveBytes f (armed q s)).rxExc (receiveBytes f (armed q s)).rxBuf)
        (receiveBytes f (armed q s))) :=
  validate_of_complete (receiveBytes_inv (armed_inv q s)) hc

/-- Settles O32: the latch follows byte 1, the length and the path follow the latch. -/
theorem lengthDecidedOnce : Obligations.LengthDecidedOnce := by
  intro s q f h2
  obtain ⟨hbuf, -⟩ := receiveBytes_armed_frame q f s
  have hexc := receiveBytes_armed_rxExc q s h2
  refine ⟨_, execAll_start_chunk q f [] s, hexc, receiveBytes_armed_rxExpect q s h2, hbuf,
    receiveBytes_armed_receiving, fun hle => ?_⟩
  have hc := receiveBytes_armed_complete hle
  refine ⟨hc, _, _, validate_receiveBytes_armed hc, rfl, fun hbit p => ?_, fun hbit c l => ?_⟩
  · rw [hexc, hbit]
    exact judge_true_not_payload _ p
  · rw [hexc, hbit]
    exact judge_false_not_exception _ c l

/-- Settles O33: `5 + ceil(q/8)` bytes are fewer than the block's `5 + 2 × q`. -/
theorem standardCoilResponseNeverCompletes : Obligations.StandardCoilResponseNeverCompletes := by
  intro s q f hq hl hbit
  have hexp := receiveBytes_armed_rxExpect q s (f := f) (by omega)
  rw [hbit, if_neg Bool.false_ne_true] at hexp
  have hshort : f.length < (receiveBytes f (armed q s)).rxExpect.toNat := by omega
  obtain ⟨hbuf, -⟩ := receiveBytes_armed_frame q f s
  exact ⟨_, execAll_start_chunk q f [] s, receiveBytes_armed_receiving hshort,
    hbuf.trans (List.take_of_length_le hshort.le)⟩

/-! ### One bit flipped (R99) -/

theorem execAll_start_chunk_validate (hc : (receiveBytes f (armed q s)).rxState = .complete) :
    execAll [.rxStart q, .rxChunk f, .rxValidate] s =
      .next (emit (judge (receiveBytes f (armed q s)).rxExc (receiveBytes f (armed q s)).rxBuf)
        (receiveBytes f (armed q s))) := by
  rw [execAll_start_chunk, execAll_cons_next (validate_receiveBytes_armed hc), execAll_nil]

theorem ne_xor_one_shiftLeft (b : Byte) {k : Nat} (hk : k < 8) : b ≠ b ^^^ (1#8 <<< k) := by
  have hne : ∀ k < 8, 1#8 <<< k ≠ 0#8 := by decide
  exact fun h => hne k hk ((BitVec.xor_right_inj b).1 (h.symm.trans BitVec.xor_zero.symm))

/-- A frame that passes the parser's comparison fails it with any one byte changed (R75). -/
theorem crc_mismatch_of_set {j : Nat} (h2 : 2 ≤ f.length)
    (hcrc : crc16 (f.take (f.length - 2)) = le16 (byteAt f (f.length - 2)) (byteAt f (f.length - 1)))
    (hj : j < f.length) (hb : byteAt f j ≠ b) :
    crc16 ((f.set j b).take (f.length - 2)) ≠
      le16 (byteAt (f.set j b) (f.length - 2)) (byteAt (f.set j b) (f.length - 1)) := by
  obtain ⟨n, hn⟩ := Nat.exists_eq_add_of_le' h2
  have hsub : f.length - 2 = n ∧ f.length - 1 = n + 1 := by omega
  rw [hsub.1, hsub.2] at hcrc ⊢
  have hf : withTrailer (f.take n) = f :=
    (withTrailer_of_le16 hcrc.symm).trans (take_append_last_two hn).symm
  have hdet := oneByteErrorDetected (f.take n) j b
  rw [hf, List.length_take_of_le (by omega)] at hdet
  exact hdet hj hb

/-- Settles O38: if bit 7 of byte 1 is now set, the exception path gives no payload; otherwise the frame
is as long as before and its CRC tells. -/
theorem singleBitMutationsRejected : Obligations.SingleBitMutationsRejected := by
  intro s q f j k hl _ hcrc hj hk
  generalize hg : f.set j (byteAt f j ^^^ (1#8 <<< k)) = g
  have hlen : g.length = f.length := by rw [← hg, List.length_set]
  have hexc := receiveBytes_armed_rxExc q s (f := g) (by omega)
  cases hbit : (byteAt g 1).getLsbD 7 with
  | true =>
    have hexp := receiveBytes_armed_rxExpect q s (f := g) (by omega)
    rw [hbit, if_pos rfl] at hexp
    have hc := receiveBytes_armed_complete (f := g) (q := q) (s := s) (by omega)
    refine ⟨_, _, execAll_start_chunk_validate hc, getLast?_emit_results _ _, fun p => ?_⟩
    rw [hexc, hbit]
    exact judge_true_not_payload _ p
  | false =>
    obtain ⟨hc, hbuf, -⟩ := receiveBytes_armed_whole (q := q) (f := g) s (by rw [hbit, hlen, hl]; rfl)
    have hbad := crc_mismatch_of_set (by omega) hcrc hj (ne_xor_one_shiftLeft (byteAt f j) hk)
    rw [hg, ← hlen] at hbad
    refine ⟨_, _, execAll_start_chunk_validate hc, getLast?_emit_results _ _, fun p => ?_⟩
    rw [hbuf, judge_of_mismatch hbad]
    nofun

/-! ### The response forms after RX.START (R93, R94, log entry 6) -/

/-- Bytes absorbed whole are all taken. -/
theorem receiveBytes_results_of_whole (hr : s.rxState = .receiving)
    (hbuf : (receiveBytes f s).rxBuf = s.rxBuf ++ f) :
    (receiveBytes f s).results = s.results ++ List.replicate f.length (.taken true) := by
  obtain ⟨k, hk, hbuf', hres, -⟩ := receiveBytes_of_receiving (bs := f) hr
  have hfull : f.take k = f := List.append_cancel_left (hbuf'.symm.trans hbuf)
  obtain rfl : k = f.length := le_antisymm hk ((List.take_eq_self_iff f).1 hfull)
  rw [hres, Nat.sub_self, List.replicate_zero, List.append_nil]

/-- The verdict on a frame given as its body and its trailer. -/
theorem judge_append_trailer (exc : Bool) {body : List Byte} (crc : U16) (h3 : 3 ≤ body.length) :
    judge exc (body ++ [lo crc, hi crc]) =
      if crc16 body = crc then
        if exc then .modbusException (byteAt body 2) (excLabel (byteAt body 2)) else .payload body
      else .crcMismatch (crc16 body) crc := by
  have hlen : (body ++ [lo crc, hi crc]).length = body.length + 2 := by simp
  have hlo : byteAt (body ++ [lo crc, hi crc]) body.length = lo crc := byteAt_append_right (i := 0)
  have hhi : byteAt (body ++ [lo crc, hi crc]) (body.length + 1) = hi crc := byteAt_append_right (i := 1)
  have hcode : byteAt (body ++ [lo crc, hi crc]) 2 = byteAt body 2 := byteAt_append_left h3
  by_cases heq : crc16 body = crc
  · simp [judge, hlen, hlo, hhi, hcode, heq]
  · simp [judge, hlen, hlo, hhi, heq]

/-- A response form as long as its byte 1 asks is absorbed whole and judged. -/
theorem exec_response_armed {body : List Byte} {crc : U16} {exc : Bool} (s : State)
    (hresp : Instr.isResponse i = true) (henc : encode i = body ++ [lo crc, hi crc])
    (hbit : (byteAt body 1).getLsbD 7 = exc)
    (hlen : body.length + 2 = if exc then 5 else 5 + 2 * q.toNat) :
    ∃ u, exec i (armed q s) = .next u ∧ u.rxState = .complete ∧ u.rxExc = exc ∧
      u.crcAcc = s.crcAcc ∧
      u.results = (armed q s).results ++ List.replicate (body.length + 2) (.taken true) ++
        [judge exc (body ++ [lo crc, hi crc])] := by
  have h3 : 3 ≤ body.length := by split at hlen <;> omega
  have hbit' : (byteAt (encode i) 1).getLsbD 7 = exc := by
    rw [henc, byteAt_append_left (by omega), hbit]
  have hl : (encode i).length = body.length + 2 := by rw [henc, List.length_append]; rfl
  obtain ⟨hc, hbuf, hexc⟩ := receiveBytes_armed_whole (q := q) s (by rw [hbit', hl, hlen])
  have hres := receiveBytes_results_of_whole (s := armed q s) rfl hbuf
  rw [hbit'] at hexc
  have hrun := (exec_of_isResponse hresp).trans (receiveFrame_of_inv (armed_inv q s) (encode i))
  rw [if_pos hc] at hrun
  refine ⟨_, hrun, hc, hexc, receiveBytes_crcAcc, ?_⟩
  rw [emit_results, hres, hl, hexc, hbuf, henc]

/-- Settles O41: each form's frame has the length its exception bit asks. -/
theorem wireResponsesJudged : Obligations.WireResponsesJudged := by
  intro s t q ht
  cases (exec_rxStart q s).symm.trans ht
  refine ⟨?_, ?_⟩
  · rintro slave fc count data crc body hdata rfl
    have hl : ([slave, fc.setWidth 8, count] ++ data).length + 2 = 5 + 2 * q.toNat := by
      rw [List.length_append, hdata, List.length_cons, List.length_cons, List.length_singleton]; omega
    have h := exec_response_armed (i := .wireRspNormal slave fc count data crc) (q := q)
      (body := [slave, fc.setWidth 8, count] ++ data) s rfl rfl (functionByte_bit false fc) hl
    rw [hl, judge_append_trailer false crc (by omega)] at h
    exact h
  · rintro slave fc code crc body rfl
    rw [BitVec.or_comm]
    have h := exec_response_armed (i := .wireRspException slave fc code crc) (q := q)
      (body := [slave, 0x80#8 ||| fc.setWidth 8, code]) s rfl rfl (functionByte_bit true fc) rfl
    rw [judge_append_trailer true crc le_rfl] at h
    exact h

end Sys2Proof.Machine
end

section
/-! PROOF. The value decoder (spec/43_value_decoder.md): the values DEC.REGS and DEC.COILS read out of a
payload (R102, R103), and the payload that is long enough for both (R104). -/

namespace Sys2Proof.Machine

variable {s t : State} {q : U16} {p : List Byte}

/-! ### The values of a long enough payload (R102, R103) -/

theorem getElem?_map_range {α : Type} (f : Nat → α) {n i : Nat} (h : i < n) :
    ((List.range n).map f)[i]? = some (f i) := by
  rw [List.getElem?_map, List.getElem?_range h, Option.map_some]

theorem getElem?_eq_byteAt {i : Nat} (h : i < p.length) : p[i]? = some (byteAt p i) := by
  rw [byteAt_eq_getElem h, List.getElem?_eq_getElem h]

theorem coilAt_iff (p : List Byte) (i : Nat) :
    coilAt p i = true ↔ (byteAt p (3 + i / 8)).toNat / 2 ^ (i % 8) % 2 = 1 := by
  rw [coilAt, BitVec.getLsbD, Nat.testBit_eq_decide_div_mod_eq, decide_eq_true_iff]

/-- Settles O42: value `i`'s two bytes lie inside a payload that is long enough. -/
theorem registersDecoded : Obligations.RegistersDecoded := by
  refine fun s q p => ⟨execDecRegs_of_short, fun hlong => ?_⟩
  refine ⟨_, execDecRegs_of_long hlong, by simp, fun i hi => ?_⟩
  exact ⟨_, _, _, getElem?_map_range _ hi, getElem?_eq_byteAt (by omega), getElem?_eq_byteAt (by omega),
    be16_toNat _ _⟩

/-- Settles O43: the bound in bits is the bound in whole bytes (`coilBytes_le_iff`), and bit `i`'s byte
lies inside a payload that meets it. -/
theorem coilsDecoded : Obligations.CoilsDecoded := by
  intro s q p
  have hbound := coilBytes_le_iff (q := q.toNat) (n := p.length)
  refine ⟨fun hshort => execDecCoils_of_short (by omega), fun hlong => ?_⟩
  refine ⟨_, execDecCoils_of_long (hbound.2 hlong), by simp, fun i hi => ?_⟩
  exact ⟨_, _, getElem?_map_range _ hi, getElem?_eq_byteAt (by omega), coilAt_iff p i⟩

/-! ### Payloads that RX.VALIDATE returned (R94, R104) -/

theorem judge_eq_payload {exc : Bool} {buf : List Byte} (h : judge exc buf = .payload p) :
    exc = false ∧ p = buf.take (buf.length - 2) := by
  rcases judge_cases exc buf _ _ rfl rfl with ⟨-, hv⟩ | ⟨-, -, hv⟩ | ⟨-, he, hv⟩ <;> cases hv.symm.trans h
  exact ⟨he, rfl⟩

/-- Under R21 an accepted frame is a normal one, so it has the `5 + 2 × RX_QTY` bytes of R52. -/
theorem length_of_validated (hinv : s.Inv) (h : exec .rxValidate s = .next t)
    (ht : t.results = s.results ++ [.payload p]) : p.length = 3 + 2 * s.rxQty.toNat := by
  obtain ⟨hc, -, rfl⟩ := validate_next h
  obtain ⟨hlen, htracks⟩ := (inv_of_complete hc).1 hinv
  have hverdict : judge s.rxExc s.rxBuf = .payload p := by simpa using ht
  obtain ⟨hexc, rfl⟩ := judge_eq_payload hverdict
  rw [Tracks.expect htracks, hexc, if_neg Bool.false_ne_true] at hlen
  rw [List.length_take]
  omega

/-- The payload of a quantity's registers holds its coils as well. -/
theorem three_add_coilBytes_le (n : Nat) : 3 + coilBytes n ≤ 3 + 2 * n :=
  coilBytes_le_iff.2 (by omega)

/-- Settles O37: the payload's length meets both decoders' bounds. -/
theorem validatedPayloadsDecode : Obligations.ValidatedPayloadsDecode := by
  intro s t u p hinv h ht
  have hl := length_of_validated hinv h ht
  exact ⟨hl, ⟨_, execDecRegs_of_long hl.ge⟩,
    _, execDecCoils_of_long ((three_add_coilBytes_le _).trans hl.ge)⟩

end Sys2Proof.Machine
end

section
/-! PROOF. The stops of an instruction (spec/60_exceptions.md R114 to R116): the fault of the value decoder,
and the refusals of REQ.BUILD and RX.VALIDATE. -/

namespace Sys2Proof.Machine

variable {s : State} {i : Instr} {q : U16} {p : List Byte} {r : Fault}

/-! ### The operations that can stop -/

theorem execDecRegs_fault (h : execDecRegs q p s = .fault r) :
    r = .payloadTooShort ∧ p.length < 3 + 2 * q.toNat := by
  by_cases hshort : p.length < 3 + 2 * q.toNat
  · rw [execDecRegs_of_short hshort] at h
    cases h
    exact ⟨rfl, hshort⟩
  · cases (execDecRegs_of_long (not_lt.1 hshort)).symm.trans h

theorem execDecCoils_fault (h : execDecCoils q p s = .fault r) :
    r = .payloadTooShort ∧ p.length < 3 + coilBytes q.toNat := by
  by_cases hshort : p.length < 3 + coilBytes q.toNat
  · rw [execDecCoils_of_short hshort] at h
    cases h
    exact ⟨rfl, hshort⟩
  · cases (execDecCoils_of_long (not_lt.1 hshort)).symm.trans h

/-- Outside the admitted codes the encoder refuses, which is no fault (R77). -/
theorem buildRequest_ne_fault (slave fc : Byte) (addr qty : U16) :
    buildRequest slave fc addr qty s ≠ .fault r := by
  cases hf : admittedFunctionCode fc with
  | true => rw [buildRequest_admitted hf]; nofun
  | false => rw [buildRequest_refused hf]; nofun

/-- The fault for a frame too short to judge needs a state outside R21 (log entry 10). -/
theorem validate_ne_fault (hi : s.Inv) : validate s ≠ .fault r := by
  by_cases hc : s.rxState = .complete
  · rw [validate_of_complete hi hc]; nofun
  · rw [validate_of_not_complete hc]; nofun

theorem receiveFrame_ne_fault (hi : s.Inv) (f : List Byte) : receiveFrame f s ≠ .fault r := by
  rw [receiveFrame_of_inv hi]; nofun

/-! ### The stops of an instruction -/

/-- Under R21 the only fault of an instruction, with the two commands that have it (R114). -/
theorem exec_fault_cases (hi : s.Inv) (h : exec i s = .fault r) :
    r = .payloadTooShort ∧
      ((∃ q p, i = .decRegs q p ∧ p.length < 3 + 2 * q.toNat) ∨
        ∃ q p, i = .decCoils q p ∧ p.length < 3 + coilBytes q.toNat) := by
  cases i with
  | crcInit | crcFeed | crcRead | crcCalc | rxByte | rxAbort | rxStatus | rxChunk | crcSeq => cases h
  | reqBuild slave fc addr qty => exact absurd h (buildRequest_ne_fault slave fc addr qty)
  | rxStart q => cases (execRxStart_eq q).symm.trans h
  | rxValidate => exact absurd h (validate_ne_fault hi)
  | decRegs q p =>
    obtain ⟨hr, hshort⟩ := execDecRegs_fault h
    exact ⟨hr, .inl ⟨q, p, rfl, hshort⟩⟩
  | decCoils q p =>
    obtain ⟨hr, hshort⟩ := execDecCoils_fault h
    exact ⟨hr, .inr ⟨q, p, rfl, hshort⟩⟩
  | wireReq01 => cases exec_wireReq01.symm.trans h
  | wireReq02 => cases exec_wireReq02.symm.trans h
  | wireReq03 => cases exec_wireReq03.symm.trans h
  | wireReq04 => cases exec_wireReq04.symm.trans h
  | wireRspNormal | wireRspException => exact absurd h (receiveFrame_ne_fault hi _)

theorem not_admittedFunctionCode_iff (fc : Byte) :
    admittedFunctionCode fc = false ↔ fc.toNat < 1 ∨ 4 < fc.toNat := by
  rw [← Bool.not_eq_true, admittedFunctionCode_iff]
  omega

/-- Settles O54: R21 is what excludes the fault for a frame too short to judge; the refusals are the same
in every state. -/
theorem onlyListedStops : Obligations.OnlyListedStops := by
  intro i s hi
  refine ⟨fun r h => exec_fault_cases hi h, fun r h => ?_⟩
  rcases exec_refused_cases h with ⟨hr, slave, fc, addr, qty, hreq, hfc⟩ | hval
  · exact .inl ⟨hr, slave, fc, addr, qty, hreq, (not_admittedFunctionCode_iff fc).1 hfc⟩
  · exact .inr hval

end Sys2Proof.Machine
end

section
/-! PROOF. Reset and hazards (spec/70_reset_and_hazards.md): what a reset writes and what it leaves
(R127, R129), and RX.START, after which a run depends on nothing of the receiver before it but `CRC_ACC`
(R133, R134). -/

namespace Sys2Proof.Machine

variable {s s' t t' : State} {is : List Instr}

/-! ### Reset (R127, R129) -/

/-- A reset leaves the registers alike from every state (R127). -/
theorem resetRegisters_sameRegisters (s u : State) :
    (resetRegisters s).SameRegisters (resetRegisters u) :=
  ⟨rfl, rfl, rfl, rfl, rfl, rfl⟩

/-- CRC.INIT then RX.ABORT leave the registers as a reset does (R69, R88, R127). -/
theorem execAll_crcInit_rxAbort (s u : State) :
    ∃ v, execAll [.crcInit, .rxAbort] u = .next v ∧ (resetRegisters s).SameRegisters v :=
  ⟨_, rfl, rfl, rfl, rfl, rfl, rfl, rfl⟩

/-- Settles O1: nothing a reset writes depends on the state it is taken in. -/
theorem resetSetsEveryRegister : Obligations.ResetSetsEveryRegister := fun s _ hin =>
  ⟨_, step_of_reset hin, resetRegisters_sameRegisters State.reset _, ⟨rfl, rfl, rfl, rfl, rfl, rfl⟩,
    execAll_crcInit_rxAbort { s with inputs := _ }⟩

/-- Settles O2: a reset writes registers only, and the second one finds them written. -/
theorem resetKeepsHostSide : Obligations.ResetKeepsHostSide := fun _ _ hin =>
  ⟨_, step_of_reset hin, rfl, rfl, step_of_reset rfl⟩

/-! ### Two runs of a list of instructions -/

/-- Agreeing next states of two states with one `CRC_ACC` have one `CRC_ACC`. -/
theorem Agree.crcAcc_eq (h : Agree s s' (.next t) (.next t')) (hc : s'.crcAcc = s.crcAcc) :
    t'.crcAcc = t.crcAcc := by
  obtain ⟨-, -, -, -, ⟨hkeep, hkeep'⟩ | hwrite⟩ := h
  · rw [hkeep, hkeep', hc]
  · exact hwrite.symm

/-- Agreement of two runs after an agreeing first step is agreement from the start: the new results are
the first step's, then the others'. -/
theorem Agree.append {o o' : Host.Outcome State Fault Refusal} (hc : s'.crcAcc = s.crcAcc)
    (h : Agree s s' (.next t) (.next t')) (hrun : Agree t t' o o') : Agree s s' o o' := by
  have htcrc := Agree.crcAcc_eq h hc
  obtain ⟨-, ⟨rs, hres, hres'⟩, hin, hin', -⟩ := h
  match o, o', hrun with
  | .next u, .next u', hu =>
    have hucrc := Agree.crcAcc_eq hu htcrc
    obtain ⟨hrx, ⟨qs, hqs, hqs'⟩, huin, huin', -⟩ := hu
    exact ⟨hrx, ⟨rs ++ qs, by rw [hqs, hres, List.append_assoc], by rw [hqs', hres', List.append_assoc]⟩,
      huin.trans hin, huin'.trans hin', .inr hucrc.symm⟩
  | .fault _, .fault _, hu => exact hu
  | .refused _, .refused _, hu => exact hu

/-- An instruction on which two runs agree leaves them to agree if the instructions after it do. -/
theorem agree_execAll_cons {i : Instr} (hc : s'.crcAcc = s.crcAcc)
    (h : Agree s s' (exec i s) (exec i s'))
    (hrest : ∀ {t t'}, t.SameRegisters t' → Agree t t' (execAll is t) (execAll is t')) :
    Agree s s' (execAll (i :: is) s) (execAll (i :: is) s') := by
  simp only [execAll]
  match exec i s, exec i s', h with
  | .next _, .next _, h => exact Agree.append hc h (hrest ⟨Agree.crcAcc_eq h hc, h.1⟩)
  | .fault _, .fault _, h => exact h
  | .refused _, .refused _, h => exact h

/-- A run depends on nothing but the six registers. -/
theorem execAll_agree (is : List Instr) (h : s.SameRegisters s') :
    Agree s s' (execAll is s) (execAll is s') := by
  induction is generalizing s s' with
  | nil => exact ⟨h.2, ⟨[], by simp, by simp⟩, rfl, rfl, .inr h.1.symm⟩
  | cons i is ih => exact agree_execAll_cons h.1 (exec_agree i h.2 (.inl h.1)) ih

/-! ### RX.START forgets (R82, R133, R134) -/

/-- RX.START agrees on any two states: it writes every receiver register and reads none. -/
theorem agree_rxStart (q : U16) (s s' : State) :
    Agree s s' (exec (.rxStart q) s) (exec (.rxStart q) s') := by
  rw [exec_rxStart, exec_rxStart]
  exact ⟨SameReceiver.refl (armReceiver q s), ⟨[.none], rfl, rfl⟩, rfl, rfl, .inl ⟨rfl, rfl⟩⟩

/-- Two agreeing outcomes of states with one `CRC_ACC` end alike, read as one implication per outcome. -/
theorem Agree.ends_alike {o o' : Host.Outcome State Fault Refusal} (hc : s'.crcAcc = s.crcAcc)
    (h : Agree s s' o o') :
    (∀ t, o = .next t → ∃ t' rs, o' = .next t' ∧ t.SameRegisters t' ∧
      t.results = s.results ++ rs ∧ t'.results = s'.results ++ rs) ∧
    (∀ r, o = .fault r → o' = .fault r) ∧ ∀ r, o = .refused r → o' = .refused r := by
  match o, o', h with
  | .next t, .next t', h =>
    have hcrc := Agree.crcAcc_eq h hc
    obtain ⟨hrx, ⟨rs, hres, hres'⟩, -⟩ := h
    refine ⟨?_, nofun, nofun⟩
    rintro _ ⟨⟩
    exact ⟨t', rs, rfl, ⟨hcrc, hrx⟩, hres, hres'⟩
  | .fault _, .fault _, rfl => exact ⟨nofun, fun _ h => h, nofun⟩
  | .refused _, .refused _, rfl => exact ⟨nofun, nofun, fun _ h => h⟩

/-- Settles O55: RX.START makes the registers of the two states the same, and a run depends on nothing
else. -/
theorem startForgetsEarlierExchange : Obligations.StartForgetsEarlierExchange := fun q is s s' hc =>
  Agree.ends_alike hc.symm (agree_execAll_cons hc.symm (agree_rxStart q s s') (execAll_agree is))

end Sys2Proof.Machine
end
